-- ==== Sys2Proof/Word.lean ====
section
/-!
DEFINITION. The values the engine handles (spec/00_scope.md rules R8, R9): bits, bytes, 10-bit command words and the
endianness. No value is signed.
-/

namespace Sys2Proof

/-- One binary digit or one slot of the BitBuffer (R8: slot width 1 bit): `true` is 1, `false` is 0. -/
abbrev Bit := Bool

/-- An input byte, an output byte or the status word (R8: 8 bits, bit 0 least significant). -/
abbrev Byte := BitVec 8

/-- A command word `w[9:0]` (R8, R60). -/
abbrev Cmd := BitVec 10

/-- The endianness of a run (R8: two values): how arrival order maps to bit positions of a packed byte (R46). -/
inductive Endian where
  | little
  | big
deriving DecidableEq, Repr

/-- R25: 0 encodes Little and 1 encodes Big. -/
def Endian.code : Endian → BitVec 1
  | .little => 0#1
  | .big => 1#1

end Sys2Proof
end

