-- ==== Sys2Proof/Syntax.lean ====
section
/-!
DEFINITION. The engine command set, edition 1 (spec/00_scope.md R2, spec/30_encoding.md R61): one constructor for each row of
spec/opcode_table.json. The engine has no other commands (R68, R118, R119).
-/

namespace Sys2Proof

/-- The four commands of R61. -/
inductive Instr where
  /-- BYTE (R62, R88): present the input byte `d`; all 256 values are legal. -/
  | byte (d : Byte)
  /-- FEED (R63, R89): feed the bit `v`, already classified by the host. -/
  | feed (v : Bit)
  /-- START (R64, R110): open a run with endianness `e`; the 1-bit field has no invalid value. -/
  | start (e : Endian)
  /-- END (R65, R111): mark the end of the input and close the run; no operand. -/
  | endRun
deriving DecidableEq, Repr

end Sys2Proof
end

