-- ==== Sys2Proof/WellFormed.lean ====
section
/-!
DEFINITION. Well-formedness at the three places the spec checks something: a command word (R67, reserved bits), a line of a
written command stream (R72, operand ranges), and an instruction, whose operand types already admit exactly the legal operands.
-/

namespace Sys2Proof

/-- R67: the word is legal, that is, not reserved: FEED and START need `w[7:1] = 0`, END needs `w[7:0] = 0`, BYTE has no
reserved encoding (R62, R88). -/
def wordLegal (w : Cmd) : Bool :=
  if w.extractLsb' 8 2 = 0b00#2 then true
  else if w.extractLsb' 8 2 = 0b11#2 then w.extractLsb' 0 8 = 0#8
  else w.extractLsb' 1 7 = 0#7

/-- Every operand of the instruction is one the spec admits. The operand types hold nothing else: BYTE takes all 256 bytes
(R62), FEED a bit (R63), START an endianness, "The 1-bit field has no invalid value" (R64), END nothing (R65). -/
def Instr.wellFormed : Instr → Bool
  | .byte _ => true
  | .feed _ => true
  | .start _ => true
  | .endRun => true

/-- One line of a written command stream (R72), or one of the pseudo-instructions (R73, R74), before its operand is checked.
`<byte>` and `<bit>` are the numbers written, of any size; a string is the bytes it stands for. -/
inductive SrcLine where
  | byte (n : Nat)
  | feed (n : Nat)
  | start (e : Endian)
  | endRun
  | digits (s : List Byte)
  | run (e : Endian) (s : List Byte)
deriving DecidableEq, Repr

/-- R72: the assembler rejects "a `<byte>` outside 0..255 and a `<bit>` other than 0 or 1". -/
def SrcLine.wellFormed : SrcLine → Bool
  | .byte n => n ≤ 255
  | .feed n => n ≤ 1
  | .start _ => true
  | .endRun => true
  | .digits _ => true
  | .run _ _ => true

end Sys2Proof
end

