-- ==== Sys2Proof/Decode.lean ====
section
/-!
DEFINITION. The decoder of spec/30_encoding.md R69, total on the 1024 words, and the encoder of R62 to R65.
-/

namespace Sys2Proof

/-- R69: every word decodes to one of the four commands or is `Reserved(w)`, rejected by that name. -/
inductive Decoded where
  | command (i : Instr)
  | reserved (w : Cmd)
deriving DecidableEq, Repr

/-- R60: `op = w[9:8]`. -/
def opField (w : Cmd) : BitVec 2 := w.extractLsb' 8 2

/-- R60: `data = w[7:0]`. -/
def dataField (w : Cmd) : Byte := w.extractLsb' 0 8

/-- R25, R64: the endianness a 1-bit field selects, 0 Little and 1 Big. -/
def endianOfBit (b : Bit) : Endian := if b then .big else .little

/-- R25, R64: the 1-bit field that selects an endianness. -/
def bitOfEndian : Endian → Bit
  | .little => false
  | .big => true

/-- R69, line by line. -/
def decode (w : Cmd) : Decoded :=
  if opField w = 0b00#2 then .command (.byte (dataField w))
  else if opField w = 0b01#2 ∧ (dataField w).extractLsb' 1 7 = 0#7 then .command (.feed ((dataField w).getLsbD 0))
  else if opField w = 0b10#2 ∧ (dataField w).extractLsb' 1 7 = 0#7 then
    .command (.start (endianOfBit ((dataField w).getLsbD 0)))
  else if opField w = 0b11#2 ∧ dataField w = 0x00#8 then .command .endRun
  else .reserved w

/-- R62 to R65: the word of a command. -/
def encode : Instr → Cmd
  | .byte d => 0b00#2 ++ d
  | .feed v => 0b01#2 ++ (0#7 ++ BitVec.ofBool v)
  | .start e => 0b10#2 ++ (0#7 ++ BitVec.ofBool (bitOfEndian e))
  | .endRun => 0b11#2 ++ 0#8

/-- The instruction in a decoding, none for a reserved word. -/
def Decoded.instr? : Decoded → Option Instr
  | .command i => some i
  | .reserved _ => none

/-- The instruction the decoder reads from a word numbered as spec/opcode_table.json numbers it. `nbits` bits are given and
the bits above them are 0. A number that needs more than 10 bits is no command word (R60) and decodes to nothing. -/
def decodeTableWord (nbits w : Nat) : Option Instr :=
  if w % 2 ^ nbits < 1024 then (decode (BitVec.ofNat 10 (w % 2 ^ nbits))).instr? else none

end Sys2Proof
end

