-- ==== Sys2Proof/Config.lean ====
section
/-!
DEFINITION. What is fixed for the engine (spec/00_scope.md rule R8) and the values the spec leaves open
(spec/93_implementation_defined.md U1, U4). The free values are opaque: no proof can learn what they are.
-/

namespace Sys2Proof.Config

/-- R8, R80: the ASCII code of `'0'` (general knowledge, spec/93_implementation_defined.md I1). -/
def digitZero : Byte := 0x30#8

/-- R8, R80: the ASCII code of `'1'` (general knowledge, spec/93_implementation_defined.md I1). -/
def digitOne : Byte := 0x31#8

/-- FREE VALUE (log entry 3). R86: after a flush "`buf[7]` may hold `v` or its earlier value"; `true` means it holds `v`. -/
opaque slot7Written : Nat → Bool

/-- FREE VALUE (log entry 4). R43, U4: `out_byte` in a step with `out_valid = 0` is not meaningful. -/
opaque idleOutByte : Nat → Byte

/-- FREE VALUE (log entry 5). R42 does not say what `cmd_ready` is in a step in which no command is presented. -/
opaque idleReady : Nat → Bool

end Sys2Proof.Config
end

