-- ==== Sys2Proof/Machine/Operands.lean ====
section
/-!
DEFINITION. The datapath's functions on values: classification (spec/40_classify_feed.md R80 to R82), its internal encoding
(spec/30_encoding.md R71), and packing (R83 to R85).
-/

namespace Sys2Proof.Machine

/-- R80: a byte is the digit 1, the digit 0, or no digit. -/
def classify (d : Byte) : Option Bit :=
  if d = Config.digitOne then some true
  else if d = Config.digitZero then some false
  else none

/-- R71: the internal signal `cls[1:0] = (valid, bit)`. -/
def cls : Option Bit → BitVec 2
  | none => 0b00#2
  | some v => 0b1#1 ++ BitVec.ofBool v

/-- R80: the byte whose classification is the bit. -/
def digitByte (v : Bit) : Byte := if v then Config.digitOne else Config.digitZero

/-- R83: the slot that output bit `k` takes, `k` under Little and `7 - k` under Big; the two are each other's inverse, so it is
also R84's `pos`, the position of slot `k`'s bit. -/
def slotOf (e : Endian) (k : Fin 8) : Fin 8 :=
  match e with
  | .little => k
  | .big => k.rev

/-- R83: output bit `k` is the bit in slot `slotOf e k`. -/
def pack (b : Vector Bit 8) (e : Endian) : Byte :=
  let bit := fun k : Fin 8 => BitVec.ofBool b[slotOf e k]
  bit 7 ++ bit 6 ++ bit 5 ++ bit 4 ++ bit 3 ++ bit 2 ++ bit 1 ++ bit 0

/-- R85: `rev8(x)[k] = x[7-k]`. -/
def rev8 (x : Byte) : Byte := x.reverse

/-- R87, R115: every 8 bits of a sequence of fed bits packed in order; an incomplete tail gives nothing. -/
def packAll (e : Endian) : List Bit → List Byte
  | b0 :: b1 :: b2 :: b3 :: b4 :: b5 :: b6 :: b7 :: rest => pack #v[b0, b1, b2, b3, b4, b5, b6, b7] e :: packAll e rest
  | _ => []

end Sys2Proof.Machine
end

