-- ==== Sys2Proof/Machine/State.lean ====
section
/-!
DEFINITION. The engine's state as plain data (spec/10_state.md R20 to R35), the model's own records beside it (R12), what the
host presents at the ports (spec/20_memory.md R42 to R45, spec/70_reset_and_hazards.md R161), and the state after reset (R35).
-/

namespace Sys2Proof.Machine

/-- R26: the run state. The code 0b11 is never held, so no constructor stands for it (spec/93_implementation_defined.md U5). -/
inductive Phase where
  /-- no run since reset -/
  | idle
  /-- a run is open and input is accepted -/
  | run
  /-- the last run has ended, and `out` holds its finished OutputSequence -/
  | done
deriving DecidableEq, Repr

/-- R131: why a command is refused, a closed set. -/
inductive RefuseReason where
  /-- a FEED, START or END word with a reserved bit set (R67) -/
  | reserved
  /-- BYTE, FEED or END in IDLE or DONE (R112) -/
  | notRunning
  /-- START in RUN (R112) -/
  | runOpen
deriving DecidableEq, Repr

/-- What one step did: R12's two outcomes of a command step, the reset step of R150, or no command accepted. -/
inductive Event where
  /-- no command was accepted and reset was not asserted; state holds (R142) -/
  | quiet
  /-- R12 `ok(s', e)`: a command was accepted, and `e` is the byte the output channel carried in this step, if any -/
  | ok (e : Option Byte)
  /-- R12 `refuse(reason)`: a command was taken off the channel without effect -/
  | refuse (reason : RefuseReason)
  /-- the reset step (R150) -/
  | reset
deriving DecidableEq, Repr

/-- What the host does at the ports next (R161). Reading STATUS and taking an output byte have no effect and need no entry. -/
inductive HostInput where
  /-- one step with `cmd_valid = 0` and `rst = 0` -/
  | quiet
  /-- the word `w` with `cmd_valid = 1`, kept stable until accepted (R161); the engine keeps `cmd_ready = 0` for `wait` more
  steps (R42: any finite time) -/
  | command (w : Cmd) (wait : Nat)
  /-- one step with `rst = 1`, with the command presented in the same step, if any (R150) -/
  | reset (presented : Option Cmd)
deriving DecidableEq, Repr

/-- The state. The first five fields are all the engine's own state there is (R20, R29); the last four are the model's:
the refusal mark (R12), the record of what the last step did, the host's pending inputs, and the index of the next free value.
The engine has no register file, program counter, memory, flags, mode or trap state (R29, R30, R31, R40, R135, R137). -/
structure State where
  /-- R21: the BitBuffer's 8 slots; slot `i` holds the bit at arrival position `i`. -/
  buf : Vector Bit 8
  /-- R22: the number of slots filled, 0..7 at every command boundary. -/
  cnt : BitVec 3
  /-- R25: the endianness of the run. -/
  endian : Endian
  /-- R26: the run state. -/
  phase : Phase
  /-- R27, R28: the OutputSequence, in production order, with no capacity limit. -/
  out : List Byte
  /-- R12: the refusal mark, model bookkeeping; no step clears it, reset included. -/
  refusalMark : Bool
  /-- What the last step did: the output channel of that step (R43) and the refusal recorded in it (R131). -/
  event : Event
  /-- What the host presents, the next step's input first (R42, R45). -/
  inputs : List HostInput
  /-- The index of the next free value of Config; every step advances it. -/
  freeIndex : Nat
deriving DecidableEq, Repr

/-- What stops the machine. The engine raises no exception (R130), and no step answers a fault. Both reasons belong to a host
that decodes a status byte (`decodeStatus`). -/
inductive Fault where
  /-- `decodeStatus` on a byte whose PHASE field is 0b11: "A model that decodes STATUS should `fault` on it" (U5). Safe. -/
  | phaseCode11
  /-- `decodeStatus` on a byte with a bit of `[7:6]` set, which R32 hardwires to 0 (log entry 8). Safe. -/
  | reservedStatusBits
deriving DecidableEq, Repr

/-- Why the model gives an instruction no meaning. The spec's own refusals (R12, R131) are not these: they are steps the spec
describes, recorded in `Event.refuse` and `State.refusalMark`. -/
inductive Refusal where
  /-- An instruction whose meaning is not written. Raised by no arm of `exec`. Safe. -/
  | notModelled (mnemonic : String)
deriving DecidableEq, Repr

/-- What a step finds at the ports: nothing accepted, reset, or an accepted command, each with the state after the inputs have
moved on. -/
inductive Fetched where
  | hold (s : State)
  | reset (s : State)
  | command (w : Cmd) (s : State)
deriving DecidableEq, Repr

/-- R35: the state after reset. The spec states no value for `buf`; zeros are the model's choice (log entry 1). Nothing is
presented, no refusal is recorded and no byte is carried. -/
def State.reset : State where
  buf := Vector.replicate 8 false
  cnt := 0#3
  endian := .little
  phase := .idle
  out := []
  refusalMark := false
  event := .reset
  inputs := []
  freeIndex := 0

end Sys2Proof.Machine
end

