-- ==== Sys2Proof/Machine/Ops.lean ====
section
/-!
DEFINITION. The shared operations: ending a step with its outcome (spec/00_scope.md R12), refusing a command (R12, R131),
feeding a bit (spec/40_classify_feed.md R86), opening and closing a run (spec/41_run_control.md R110, R111), reset
(spec/70_reset_and_hazards.md R150) and taking the next input at the ports (spec/20_memory.md R42). Refusing stands where other
machines take an exception: the engine has none (R130, R135).
-/

namespace Sys2Proof.Machine

/-- A step ends with the event `e`; the next free value is a new one. -/
def State.conclude (s : State) (e : Event) : State := { s with event := e, freeIndex := s.freeIndex + 1 }

/-- R142: a step that accepts no command holds the state, and the output channel carries nothing. -/
def State.hold (s : State) : State := s.conclude .quiet

/-- R12: the command is taken off the channel, no state element changes, no byte is carried, and the refusal mark is set. -/
def State.refuse (s : State) (r : RefuseReason) : State := { s with refusalMark := true }.conclude (.refuse r)

/-- R12: an accepted command that carries no byte. -/
def State.accept (s : State) : State := s.conclude (.ok none)

/-- R10 `emit(b)`: the output channel carries `b` in this step, and `out` gets `b` at its end. -/
def State.emit (s : State) (b : Byte) : State := { s with out := s.out ++ [b] }.conclude (.ok (some b))

/-- The slot `cnt` points at exists: a 3-bit count is below 8. -/
theorem cnt_lt_slots (c : BitVec 3) : c.toNat < 8 := c.isLt

/-- R86: `buf[cnt] <- v` and `cnt <- cnt + 1`, for `cnt <= 6`. -/
def State.appendBit (s : State) (v : Bit) : State :=
  { s with buf := s.buf.set s.cnt.toNat v (cnt_lt_slots s.cnt), cnt := s.cnt + 1#3 }

/-- R86: what a flush by the bit `v` packs: slots 0 to 6 and `v` as the eighth bit, under the run's endianness. -/
def State.flushByte (s : State) (v : Bit) : Byte := pack (s.buf.set 7 v) s.endian

/-- R86, at the 8th bit `v`: emit the packed byte and reset the count. Slot 7 holds `v` or its earlier value, which of the two
is a free value (log entry 3). -/
def State.flush (s : State) (v : Bit) : State :=
  { s with
    buf := s.buf.set 7 (if Config.slot7Written s.freeIndex then v else s.buf[7])
    cnt := 0#3 }.emit (s.flushByte v)

/-- R86: the action BYTE (on a digit) and FEED share, in phase RUN. -/
def State.feedBit (s : State) (v : Bit) : State :=
  if s.cnt = 7#3 then s.flush v else (s.appendBit v).accept

/-- R110: a new run with endianness `e`; `buf` is not written. -/
def State.openRun (s : State) (e : Endian) : State :=
  { s with endian := e, cnt := 0#3, out := [], phase := .run }.accept

/-- R111: the partial byte is dropped, not flushed, and `out` is final. -/
def State.closeRun (s : State) : State := { s with cnt := 0#3, phase := .done }.accept

/-- R150: the reset step. `buf` is not written, and the refusal mark stays (R12). -/
def State.resetEngine (s : State) : State :=
  { s with phase := .idle, cnt := 0#3, endian := .little, out := [] }.conclude .reset

/-- R42, R45, R136: what the ports hold for this step. Reset comes before a command presented with it, which is not accepted.
A command is accepted when the engine raises `cmd_ready`, after `wait` steps in which the host keeps it stable. -/
def fetch (s : State) : Fetched :=
  match s.inputs with
  | [] => .hold s
  | .quiet :: rest => .hold { s with inputs := rest }
  | .reset _ :: rest => .reset { s with inputs := rest }
  | .command w 0 :: rest => .command w { s with inputs := rest }
  | .command w (n + 1) :: rest => .hold { s with inputs := .command w n :: rest }

end Sys2Proof.Machine
end

