-- ==== Sys2Proof/Machine/Control.lean ====
section
/-!
DEFINITION. The run control commands START and END (spec/41_run_control.md R110, R111, R112).
-/

namespace Sys2Proof.Machine

/-- R110: START opens a run with endianness `e`; it is refused while a run is open. -/
def execStart (e : Endian) (s : State) : Host.Outcome State Fault Refusal :=
  if s.phase = .run then .next (s.refuse .runOpen) else .next (s.openRun e)

/-- R111: END closes the run and drops the partial byte; it is refused when no run is open. -/
def execEndRun (s : State) : Host.Outcome State Fault Refusal :=
  if s.phase ≠ .run then .next (s.refuse .notRunning) else .next s.closeRun

end Sys2Proof.Machine
end

