-- ==== Sys2Proof/Machine/Data.lean ====
section
/-!
DEFINITION. The data commands BYTE and FEED (spec/40_classify_feed.md R88, R89). Both are accepted in RUN only (R112).
-/

namespace Sys2Proof.Machine

/-- R88: BYTE presents one input byte: a digit is fed, any other byte changes nothing. -/
def execByte (d : Byte) (s : State) : Host.Outcome State Fault Refusal :=
  if s.phase ≠ .run then .next (s.refuse .notRunning)
  else
    match classify d with
    | none => .next s.accept
    | some v => .next (s.feedBit v)

/-- R89: FEED feeds one bit the host has already classified. -/
def execFeed (v : Bit) (s : State) : Host.Outcome State Fault Refusal :=
  if s.phase ≠ .run then .next (s.refuse .notRunning) else .next (s.feedBit v)

end Sys2Proof.Machine
end

