-- ==== Sys2Proof/Machine/Dispatch.lean ====
section
/-! DEFINITION. The meaning of each command of spec/opcode_table.json, one arm each. -/

namespace Sys2Proof.Machine

def exec (i : Instr) (s : State) : Host.Outcome State Fault Refusal :=
  match i with
  | .byte d => Sys2Proof.Machine.execByte d s
  | .feed v => Sys2Proof.Machine.execFeed v s
  | .start e => Sys2Proof.Machine.execStart e s
  | .endRun => Sys2Proof.Machine.execEndRun s

end Sys2Proof.Machine
end

