-- ==== Sys2Proof/Machine/Step.lean ====
section
/-!
DEFINITION. One step of the engine (spec/60_exceptions.md R136): reset, or the accepted command's one outcome, or nothing. The
engine fetches nothing (spec/10_state.md R30, spec/20_memory.md R55); a step takes what the host presents.
-/

namespace Sys2Proof.Machine

/-- One step. A reserved word is refused in every phase, before its phase is looked at (R67, R70). -/
def step (s : State) : Host.Outcome State Fault Refusal :=
  match fetch s with
  | .hold t => .next t.hold
  | .reset t => .next t.resetEngine
  | .command w t =>
    match decode w with
    | .command i => exec i t
    | .reserved _ => .next (t.refuse .reserved)

/-- `s` with a word presented on the command channel, to be accepted in the very next step (log entry 6). The channel is 10
bits wide (R42), so higher bits of the number cannot be presented. -/
def State.withFetchWord (s : State) (nbits w : Nat) : State :=
  { s with inputs := .command (BitVec.ofNat 10 (w % 2 ^ nbits)) 0 :: s.inputs }

end Sys2Proof.Machine
end

