-- ==== Sys2Proof/Machine/Flags.lean ====
section
/-!
DEFINITION. The engine has no flags (spec/10_state.md R31). Its one status word is STATUS (R32, R33), a view of `cnt`, `endian`
and `phase`; and the host's reading of that word back into its fields (spec/93_implementation_defined.md U5).
-/

namespace Sys2Proof.Machine

/-- R26: IDLE = 0b00, RUN = 0b01, DONE = 0b10. -/
def Phase.code : Phase → BitVec 2
  | .idle => 0b00#2
  | .run => 0b01#2
  | .done => 0b10#2

/-- R32: the status word of a phase, an endianness and a count: two zeros, `phase[1:0]`, `endian`, `cnt[2:0]`. -/
def statusWord (p : Phase) (e : Endian) (c : BitVec 3) : Byte := 0b00#2 ++ p.code ++ e.code ++ c

/-- R32, R44: STATUS, shown at all times; reading it has no side effect. -/
def State.status (s : State) : Byte := statusWord s.phase s.endian s.cnt

/-- R32: the fields of a status byte, or the fault of a byte that STATUS never shows. -/
def decodeStatus (x : Byte) : Except Fault (Phase × Endian × BitVec 3) :=
  let e : Endian := if x.getLsbD 3 then .big else .little
  let c := x.extractLsb' 0 3
  if x.extractLsb' 6 2 ≠ 0b00#2 then .error .reservedStatusBits
  else if x.extractLsb' 4 2 = 0b00#2 then .ok (.idle, e, c)
  else if x.extractLsb' 4 2 = 0b01#2 then .ok (.run, e, c)
  else if x.extractLsb' 4 2 = 0b10#2 then .ok (.done, e, c)
  else .error .phaseCode11

end Sys2Proof.Machine
end

