-- ==== Sys2Proof/Machine/Ports.lean ====
section
/-!
DEFINITION. The ports of spec/20_memory.md R42 to R45 as views of the state: the input pins of the step about to be taken and the
output pins of the step last taken. STATUS is in Machine/Flags.lean.
-/

namespace Sys2Proof.Machine

/-- R45: `rst` in the step about to be taken. -/
def State.rst (s : State) : Bool :=
  match s.inputs with
  | .reset _ :: _ => true
  | _ => false

/-- R42: the word on `cmd` in the step about to be taken; none is `cmd_valid = 0`. -/
def State.cmd (s : State) : Option Cmd :=
  match s.inputs with
  | .command w _ :: _ => some w
  | .reset presented :: _ => presented
  | _ => none

/-- R42: `cmd_valid` in the step about to be taken. -/
def State.cmdValid (s : State) : Bool := s.cmd.isSome

/-- R42: `cmd_ready` in the step about to be taken. With no command presented the spec does not say, so it is a free value (log
entry 5); a command presented together with reset is not accepted (R150). -/
def State.cmdReady (s : State) : Bool :=
  match s.inputs with
  | .command _ wait :: _ => wait = 0
  | .reset (some _) :: _ => false
  | _ => Config.idleReady s.freeIndex

/-- R43: the byte the output channel carried in the step last taken, if any. -/
def State.carried (s : State) : Option Byte :=
  match s.event with
  | .ok e => e
  | _ => none

/-- R43: `out_valid` in the step last taken. -/
def State.outValid (s : State) : Bool := s.carried.isSome

/-- R43: `out_byte` in the step last taken; a free value when `out_valid = 0` (U4, log entry 4). -/
def State.outByte (s : State) : Byte := s.carried.getD (Config.idleOutByte s.freeIndex)

end Sys2Proof.Machine
end

