-- ==== Sys2Proof/Machine/Run.lean ====
section
/-!
DEFINITION. Several commands and several steps: the command stream of one run (spec/41_run_control.md R114), executing a list of
commands, taking a number of steps while collecting what the output channel carries (spec/20_memory.md R43, R53), and the words a
list of host inputs presents.
-/

namespace Sys2Proof.Machine

/-- R114: the commands of `run(x, e)`: START, one BYTE for each input byte in order, END. -/
def runProgram (x : List Byte) (e : Endian) : List Instr := .start e :: (x.map .byte ++ [.endRun])

/-- R80, R115: the bits of the digits of an input, in order. -/
def digitBits (x : List Byte) : List Bit := x.filterMap classify

/-- The bit a command feeds when accepted (R86, R88, R89). -/
def fedBit : Instr → Option Bit
  | .byte d => classify d
  | .feed v => some v
  | .start _ => none
  | .endRun => none

/-- Execute commands one after another, each accepted in its turn (R52). -/
def execAll : List Instr → State → Host.Outcome State Fault Refusal
  | [], s => .next s
  | i :: is, s =>
    match exec i s with
    | .next t => execAll is t
    | .fault r => .fault r
    | .refused r => .refused r

/-- Take `k` steps: the bytes the output channel carries in them, in order (R43, R52), and the state after them. -/
def runSteps : Nat → State → Option (List Byte × State)
  | 0, s => some ([], s)
  | k + 1, s =>
    match step s with
    | .next t => (runSteps k t).map fun r => (t.carried.toList ++ r.1, r.2)
    | _ => none

/-- The words of a list of host inputs, in the order presented for acceptance. -/
def presentedWords : List HostInput → List Cmd
  | [] => []
  | .command w _ :: rest => w :: presentedWords rest
  | .quiet :: rest => presentedWords rest
  | .reset _ :: rest => presentedWords rest

/-- No reset is asserted in the list of host inputs. -/
def resetFree : List HostInput → Bool
  | [] => true
  | .reset _ :: _ => false
  | .quiet :: rest => resetFree rest
  | .command _ _ :: rest => resetFree rest

/-- The number of steps a list of host inputs takes: a command waits until `cmd_ready` and is then accepted (R42). -/
def stepsTaken : List HostInput → Nat
  | [] => 0
  | .command _ wait :: rest => wait + 1 + stepsTaken rest
  | .quiet :: rest => 1 + stepsTaken rest
  | .reset _ :: rest => 1 + stepsTaken rest

end Sys2Proof.Machine
end

