-- ==== Sys2Proof/Machine/Assembler.lean ====
section
/-!
DEFINITION. The written form of a command stream (spec/30_encoding.md R72 to R75): its pseudo-instructions, and the assembler
from a text to commands. A text is the list of its characters' codes. What R72 leaves open about blanks is in log entry 9.
-/

namespace Sys2Proof.Machine

/-- R72 to R74: the commands a line stands for, none where the assembler rejects its operand. -/
def expand (l : SrcLine) : Option (List Instr) :=
  if l.wellFormed then
    match l with
    | .byte n => some [.byte (BitVec.ofNat 8 n)]
    | .feed n => some [.feed (n = 1)]
    | .start e => some [.start e]
    | .endRun => some [.endRun]
    | .digits s => some (s.map .byte)
    | .run e s => some (runProgram s e)
  else none

/-- The codes of a text. -/
def codes (s : String) : List Nat := s.toList.map Char.toNat

/-- Blanks between words: space and tab. -/
def isBlank (c : Nat) : Bool := c = 0x20 || c = 0x09

def skipBlanks : List Nat → List Nat
  | [] => []
  | c :: cs => if isBlank c then skipBlanks cs else c :: cs

/-- The letters at the head of a text, and the rest. -/
def takeWord : List Nat → List Nat × List Nat
  | [] => ([], [])
  | c :: cs =>
    if (0x41 ≤ c ∧ c ≤ 0x5A) ∨ (0x61 ≤ c ∧ c ≤ 0x7A) then (c :: (takeWord cs).1, (takeWord cs).2) else ([], c :: cs)

/-- The value of a decimal digit's code. -/
def decDigit (c : Nat) : Option Nat := if 0x30 ≤ c ∧ c ≤ 0x39 then some (c - 0x30) else none

/-- The value of a hexadecimal digit's code, either case. -/
def hexDigit (c : Nat) : Option Nat :=
  if 0x30 ≤ c ∧ c ≤ 0x39 then some (c - 0x30)
  else if 0x41 ≤ c ∧ c ≤ 0x46 then some (c - 0x37)
  else if 0x61 ≤ c ∧ c ≤ 0x66 then some (c - 0x57)
  else none

/-- The decimal digits at the head of a text, read after the value `acc`, and the rest. -/
def takeDecimal (acc : Nat) : List Nat → Nat × List Nat
  | [] => (acc, [])
  | c :: cs =>
    match decDigit c with
    | some d => takeDecimal (10 * acc + d) cs
    | none => (acc, c :: cs)

/-- R72 `<byte>`: `0xHH`, decimal, or a character literal standing for its ASCII code. -/
def takeByte : List Nat → Option (Nat × List Nat)
  | 0x27 :: c :: 0x27 :: rest => if c < 128 then some (c, rest) else none
  | 0x30 :: 0x78 :: h :: l :: rest => do
    let h ← hexDigit h
    let l ← hexDigit l
    return (16 * h + l, rest)
  | c :: rest => (decDigit c).map fun d => takeDecimal d rest
  | [] => none

/-- R72 `<bit>`: `0` or `1`. -/
def takeBit : List Nat → Option (Nat × List Nat)
  | 0x30 :: rest => some (0, rest)
  | 0x31 :: rest => some (1, rest)
  | _ => none

/-- R72 `<endian>`: `little` or `big`. -/
def takeEndian (cs : List Nat) : Option (Endian × List Nat) :=
  let (word, rest) := takeWord cs
  if word = codes "little" then some (.little, rest)
  else if word = codes "big" then some (.big, rest)
  else none

/-- R73: the characters of a string up to its closing quote. In it `\xHH`, `\n`, `\"` and `\\` stand for one byte each. -/
def takeChars : List Nat → Option (List Byte × List Nat)
  | 0x22 :: rest => some ([], rest)
  | 0x5C :: 0x78 :: h :: l :: rest => do
    let h ← hexDigit h
    let l ← hexDigit l
    let (s, rest) ← takeChars rest
    return (BitVec.ofNat 8 (16 * h + l) :: s, rest)
  | 0x5C :: 0x6E :: rest => (takeChars rest).map fun r => (0x0A#8 :: r.1, r.2)
  | 0x5C :: 0x22 :: rest => (takeChars rest).map fun r => (0x22#8 :: r.1, r.2)
  | 0x5C :: 0x5C :: rest => (takeChars rest).map fun r => (0x5C#8 :: r.1, r.2)
  | 0x5C :: _ => none
  | c :: rest => if c < 128 then (takeChars rest).map fun r => (BitVec.ofNat 8 c :: r.1, r.2) else none
  | [] => none

/-- R73: a string in double quotes. -/
def takeString : List Nat → Option (List Byte × List Nat)
  | 0x22 :: rest => takeChars rest
  | _ => none

/-- R72: only blanks or a comment follow. -/
def atEnd (cs : List Nat) : Bool :=
  match skipBlanks cs with
  | [] => true
  | c :: _ => c = 0x3B

/-- A line whose operand is read by `operand` and followed by nothing. -/
def lineOf {α : Type} (operand : List Nat → Option (α × List Nat)) (line : α → SrcLine) (cs : List Nat) : Option SrcLine := do
  let (a, rest) ← operand cs
  if atEnd rest then return line a else none

/-- R74: the operands of `RUN`, a keyword and a string. -/
def takeEndianString (cs : List Nat) : Option ((Endian × List Byte) × List Nat) := do
  let (e, rest) ← takeEndian cs
  let operand := skipBlanks rest
  if operand = rest then none
  else
    let (s, rest) ← takeString operand
    return ((e, s), rest)

/-- R72 to R74: one line of text; none where the assembler rejects it, an empty list for a blank or comment line. -/
def parseLine (cs : List Nat) : Option (List SrcLine) :=
  if atEnd cs then some []
  else
    let (word, rest) := takeWord (skipBlanks cs)
    let operands := skipBlanks rest
    if word = codes "END" then if atEnd rest then some [.endRun] else none
    else if operands = rest then none
    else if word = codes "BYTE" then (lineOf takeByte .byte operands).map ([·])
    else if word = codes "FEED" then (lineOf takeBit .feed operands).map ([·])
    else if word = codes "START" then (lineOf takeEndian .start operands).map ([·])
    else if word = codes "DIGITS" then (lineOf takeString .digits operands).map ([·])
    else if word = codes "RUN" then (lineOf takeEndianString (fun r => .run r.1 r.2) operands).map ([·])
    else none

/-- The lines of a text, cut at newlines. -/
def splitLines : List Nat → List (List Nat)
  | [] => [[]]
  | c :: cs =>
    if c = 0x0A then [] :: splitLines cs
    else
      match splitLines cs with
      | [] => [[c]]
      | l :: ls => (c :: l) :: ls

/-- R72 to R74: the commands of a written command stream, none where the assembler rejects a line. -/
def assembleLines : List (List Nat) → Option (List Instr)
  | [] => some []
  | l :: ls => do
    let lines ← parseLine l
    let is ← lines.mapM expand
    let rest ← assembleLines ls
    return is.flatten ++ rest

/-- R72: the assembler. -/
def assemble (text : List Nat) : Option (List Instr) := assembleLines (splitLines text)

/-- R75: the words of a written command stream. -/
def assembleWords (text : List Nat) : Option (List Cmd) := (assemble text).map (List.map encode)

end Sys2Proof.Machine
end

