-- ==== Sys2Proof/Safety.lean ====
section
/-!
DEFINITION. The terms claims use: the protocol a host keeps (spec/41_run_control.md R112, R113), the observation of a run (R120),
agreement of two states up to what nothing can observe (spec/10_state.md R24, R34), and the engine's invariant.
-/

namespace Sys2Proof.Machine

/-- R112: the phase accepts the command. -/
def accepts : Phase → Instr → Bool
  | .run, .start _ => false
  | .run, _ => true
  | _, .start _ => true
  | _, _ => false

/-- R112: the phase after an accepted command. -/
def phaseAfter : Phase → Instr → Phase
  | _, .start _ => .run
  | _, .endRun => .done
  | p, _ => p

/-- R113: from phase `p`, every command of the list is one its phase accepts. -/
def keepsProtocol : Phase → List Instr → Bool
  | _, [] => true
  | p, i :: is => accepts p i && keepsProtocol (phaseAfter p i) is

/-- R120: what is observed of a run: `out` and STATUS at the step that accepts its END. -/
structure Observation where
  out : List Byte
  status : Byte
deriving DecidableEq, Repr

/-- R120: the observation a step from `before` to `after` makes. A run ends in the step that takes the phase from RUN to DONE,
and it has no observation if the refusal mark is set by then. -/
def observation (before after : State) : Option Observation :=
  if before.phase = .run ∧ after.phase = .done ∧ after.refusalMark = false then some ⟨after.out, after.status⟩ else none

/-- The bits fed and not yet flushed, in arrival order: the slots below `cnt` (R23). -/
def State.pending (s : State) : List Bit := s.buf.toList.take s.cnt.toNat

/-- Two states agree on everything but the slots at index `cnt` and above (R24) and the index of the next free value. -/
def AgreeUpToStale (s t : State) : Prop :=
  s.pending = t.pending ∧ s.cnt = t.cnt ∧ s.endian = t.endian ∧ s.phase = t.phase ∧ s.out = t.out ∧
    s.refusalMark = t.refusalMark ∧ s.event = t.event ∧ s.inputs = t.inputs

/-- The five elements of R20 are the same. -/
def SameElements (s t : State) : Prop :=
  t.buf = s.buf ∧ t.cnt = s.cnt ∧ t.endian = s.endian ∧ t.phase = s.phase ∧ t.out = s.out

/-- R12 `refuse(reason)`: no element of the state changes, no byte is carried, the refusal mark is set, and the reason is what the
step records. -/
def RefusedStep (s t : State) (r : RefuseReason) : Prop :=
  SameElements s t ∧ t.refusalMark = true ∧ t.carried = none ∧ t.event = .refuse r

/-- What every step keeps. -/
structure State.Inv (s : State) : Prop where
  /-- R35, R111: outside RUN no bit is pending. -/
  nothingPending : s.phase ≠ .run → s.cnt = 0#3
  /-- R26, R35: IDLE is "no run since reset", so `endian` and `out` are as reset left them. -/
  idleAsReset : s.phase = .idle → s.endian = .little ∧ s.out = []
  /-- R43, R86: a step that carried a byte flushed: the byte is the last of `out`, and the count is 0 in an open run. -/
  carriedIsLast : ∀ b, s.event = .ok (some b) → s.phase = .run ∧ s.cnt = 0#3 ∧ s.out.getLast? = some b
  /-- R12: a refusal in the last step has set the mark. -/
  refusedIsMarked : ∀ r, s.event = .refuse r → s.refusalMark = true

end Sys2Proof.Machine
end

