-- ==== Sys2Proof/Certificates/Slice0/Obligations.lean ====
section
/-!
DEFINITION. The statements about the engine, from the numbered rules of spec/. No statement speaks of a slot at index `cnt` or above
after a command that leaves it undefined (spec/10_state.md R24): what such commands do to the BitBuffer is said through
`State.pending`, the slots below `cnt`. A statement of a command's result is also its frame: it names every element of the state.
-/

open Sys2Proof Sys2Proof.Machine

/-! ## Reset and invariant -/

/-- R35: the values after reset. `buf` is unspecified there, so nothing is said of its slots. -/
def Obligations.ResetLeavesTheSpecifiedValues : Prop :=
  State.reset.cnt = 0#3 ∧ State.reset.endian = .little ∧ State.reset.phase = .idle ∧ State.reset.out = [] ∧
    State.reset.status = 0x00#8 ∧ State.reset.outValid = false

/-- R150, R151, and the last sentence of R136: a reset step, at any time and with any command presented with it. -/
def Obligations.ResetStepClearsTheEngineAndBeatsACommand : Prop :=
  ∀ (s : State) (presented : Option Cmd) (rest : List HostInput), s.inputs = .reset presented :: rest →
    ∃ t, step s = .next t ∧ t.phase = .idle ∧ t.cnt = 0#3 ∧ t.endian = .little ∧ t.out = [] ∧ t.event = .reset ∧
      t.carried = none ∧ t.status = 0x00#8 ∧ t.refusalMark = s.refusalMark ∧ t.inputs = rest

/-- The invariant holds after reset. -/
def Obligations.ResetStateSatisfiesTheInvariant : Prop := State.reset.Inv

/-- From every state with the invariant, every step leaves a state with it. -/
def Obligations.EveryStepKeepsTheInvariant : Prop :=
  ∀ s t : State, s.Inv → step s = .next t → t.Inv

/-- Every step answers a next state, a refusal included. That no step ends in a fault is R130's "The engine raises no exception"; that
a refused command, to which R12 gives no meaning, still answers a next state (state unchanged, mark set) is the model's reading of R12,
log entry 2. -/
def Obligations.EveryStepHasANextState : Prop :=
  ∀ s : State, ∃ t, step s = .next t

/-! ## Encoding -/

/-- R75 with R62 to R65: the words of the four forms, as numbers. -/
def Obligations.CommandWordsOfTheFourForms : Prop :=
  (∀ d : Byte, (encode (.byte d)).toNat = d.toNat) ∧
    encode (.feed false) = 0x100#10 ∧ encode (.feed true) = 0x101#10 ∧
    encode (.start .little) = 0x200#10 ∧ encode (.start .big) = 0x201#10 ∧ encode .endRun = 0x300#10 ∧
    encode (.byte 0x31#8) = 0x031#10

/-- Words of spec/95_test_vectors.md 2.3, written bit by bit, decode to the commands and rejections listed there. -/
def Obligations.ListedWordsDecodeAsListed : Prop :=
  decode 0b0000110001#10 = .command (.byte 0x31#8) ∧ decode 0b0011111111#10 = .command (.byte 0xFF#8) ∧
    decode 0b0100000000#10 = .command (.feed false) ∧ decode 0b0100000001#10 = .command (.feed true) ∧
    decode 0b1000000000#10 = .command (.start .little) ∧ decode 0b1000000001#10 = .command (.start .big) ∧
    decode 0b1100000000#10 = .command .endRun ∧ decode 0b0100000010#10 = .reserved 0x102#10 ∧
    decode 0b1000000010#10 = .reserved 0x202#10 ∧ decode 0b1100000001#10 = .reserved 0x301#10

/-- Decoding the word of any command gives back that command with every operand, through the table's numbering too. -/
def Obligations.DecodeReadsBackEveryEncodedCommand : Prop :=
  ∀ i : Instr, i.wellFormed = true →
    decode (encode i) = .command i ∧ decodeTableWord 16 (encode i).toNat = some i ∧ wordLegal (encode i) = true

/-- The other direction: a word decodes only to the command it encodes, so no two words decode alike, and the words that decode to
none are exactly the reserved ones (R67, R69). -/
def Obligations.EveryWordIsOneCommandOrReserved : Prop :=
  ∀ w : Cmd, (∃ i, decode w = .command i ∧ encode i = w ∧ wordLegal w = true) ∨
    (decode w = .reserved w ∧ wordLegal w = false ∧ ∀ i, encode i ≠ w)

/-- R67: 254 reserved FEED words, 254 reserved START words and 255 reserved END words: 763 of 1024, and 261 legal words. -/
def Obligations.ReservedWordCounts : Prop :=
  let words := (List.range 1024).map (BitVec.ofNat 10)
  let reserved := fun op : BitVec 2 => words.countP fun w => opField w = op && !wordLegal w
  reserved 0b00#2 = 0 ∧ reserved 0b01#2 = 254 ∧ reserved 0b10#2 = 254 ∧ reserved 0b11#2 = 255 ∧
    words.countP (fun w => !wordLegal w) = 763 ∧ words.countP wordLegal = 261

/-! ## Classification and packing -/

/-- R80: exactly two byte values are digits. -/
def Obligations.ClassifyRecognisesExactlyTheTwoDigits : Prop :=
  ∀ d : Byte, (classify d = some true ↔ d = 0x31#8) ∧ (classify d = some false ↔ d = 0x30#8) ∧
    (classify d = none ↔ d ≠ 0x30#8 ∧ d ≠ 0x31#8)

/-- R71: the internal signal's codes, of which 0b01 is never one. -/
def Obligations.ClassifySignalCodes : Prop :=
  cls none = 0b00#2 ∧ cls (some false) = 0b10#2 ∧ cls (some true) = 0b11#2 ∧ ∀ c, cls c ≠ 0b01#2

/-- R83: each output bit under each endianness. -/
def Obligations.PackPlacesEachBitByEndianness : Prop :=
  ∀ (b : Vector Bit 8) (k : Nat) (h : k < 8),
    (pack b .little).getLsbD k = b[k] ∧ (pack b .big).getLsbD k = b[7 - k]

/-- R84: packing is the carry-free sum of the bits at their positions. -/
def Obligations.PackIsTheSumOfPlacedBits : Prop :=
  ∀ b : Vector Bit 8,
    (pack b .little).toNat = ∑ p : Fin 8, b[p].toNat <<< p.val ∧
      (pack b .big).toNat = ∑ p : Fin 8, b[p].toNat <<< (7 - p.val)

/-- R85: the five laws of packing: bit reversal, Big as a binary number, the count of 1 bits, the two constant octets, and
bijectivity. -/
def Obligations.PackLaws : Prop :=
  (∀ b : Vector Bit 8, ∀ k < 8, (pack b .big).getLsbD k = (pack b .little).getLsbD (7 - k)) ∧
    (∀ b : Vector Bit 8, pack b .big = rev8 (pack b .little)) ∧
    (∀ b : Vector Bit 8, (pack b .big).toNat = b.toList.foldl (fun n v => 2 * n + v.toNat) 0) ∧
    (∀ (b : Vector Bit 8) (e : Endian), (List.range 8).countP (fun k => (pack b e).getLsbD k) = b.toList.count true) ∧
    (∀ e, pack (Vector.replicate 8 false) e = 0x00#8 ∧ pack (Vector.replicate 8 true) e = 0xFF#8) ∧
    ∀ (e : Endian) (r : Byte), ∃! b : Vector Bit 8, pack b e = r

/-! ## Ports and steps -/

/-- R42: a step accepts a command exactly when `cmd_valid` and `cmd_ready` are both 1 (and reset is not asserted, R136), and then
it is the word presented. -/
def Obligations.CommandAcceptedWhenValidAndReady : Prop :=
  ∀ (s : State) (w : Cmd),
    (∃ t, fetch s = .command w t) ↔ s.cmd = some w ∧ s.cmdValid = true ∧ s.cmdReady = true ∧ s.rst = false

/-- A step that accepts a command's word executes that command, with the word taken off the channel first. -/
def Obligations.StepExecutesTheDecodedCommand : Prop :=
  ∀ (s : State) (w : Cmd) (rest : List HostInput) (i : Instr),
    s.inputs = .command w 0 :: rest → decode w = .command i → step s = exec i { s with inputs := rest }

/-- A presented command's word is executed by the very next step. -/
def Obligations.PresentedCommandRunsNext : Prop :=
  ∀ (s : State) (i : Instr), step (s.withFetchWord 16 (encode i).toNat) = exec i s

/-- R67, R70: a reserved word is refused in every phase, with no state change and no byte, and the mark set. -/
def Obligations.ReservedWordIsRefusedInEveryPhase : Prop :=
  ∀ (s : State) (w : Cmd) (rest : List HostInput), s.inputs = .command w 0 :: rest → wordLegal w = false →
    ∃ t, step s = .next t ∧ RefusedStep s t .reserved ∧ t.inputs = rest

/-- R142: a step that accepts no command and takes no reset holds the engine's state and carries nothing: with nothing presented,
and while a presented command waits for `cmd_ready`, which the host keeps stable (R161). -/
def Obligations.StateHoldsBetweenCommands : Prop :=
  ∀ s : State,
    (s.inputs = [] → ∃ t, step s = .next t ∧ SameElements s t ∧ t.refusalMark = s.refusalMark ∧ t.carried = none ∧ t.inputs = []) ∧
    (∀ rest, s.inputs = .quiet :: rest →
      ∃ t, step s = .next t ∧ SameElements s t ∧ t.refusalMark = s.refusalMark ∧ t.carried = none ∧ t.inputs = rest) ∧
    (∀ w n rest, s.inputs = .command w (n + 1) :: rest →
      ∃ t, step s = .next t ∧ SameElements s t ∧ t.refusalMark = s.refusalMark ∧ t.carried = none ∧
        t.inputs = .command w n :: rest)

/-- A presented command is accepted after the steps it waits, in which nothing changes and nothing is carried. That these are finitely
many is no property of the engine: it is R160's assumption of fairness, built into the model by `HostInput.command`, whose wait is a
natural number (log entry 7, a choice, unsafe for hardware that stalls for ever). -/
def Obligations.PresentedCommandIsEventuallyAccepted : Prop :=
  ∀ (n : Nat) (s : State) (w : Cmd) (rest : List HostInput), s.inputs = .command w n :: rest →
    ∃ t u, runSteps n s = some ([], t) ∧ SameElements s t ∧ t.refusalMark = s.refusalMark ∧ fetch t = .command w u ∧
      u.inputs = rest

/-! ## BYTE and FEED -/

/-- R88: in an open run a byte that is no digit changes nothing, 0x00 included, whatever the count. -/
def Obligations.NonDigitByteChangesNothing : Prop :=
  ∀ (d : Byte) (s : State), s.phase = .run → d ≠ 0x30#8 → d ≠ 0x31#8 →
    ∃ t, exec (.byte d) s = .next t ∧ SameElements s t ∧ t.refusalMark = s.refusalMark ∧ t.event = .ok none ∧
      t.carried = none ∧ t.inputs = s.inputs

/-- R86 below seven filled slots, for BYTE on a digit and for FEED: the bit is appended at arrival position `cnt`, no byte is
carried, and all else stays. -/
def Obligations.DigitBelowSevenIsAppended : Prop :=
  ∀ (i : Instr) (v : Bit) (s : State), i = .byte 0x30#8 ∧ v = false ∨ i = .byte 0x31#8 ∧ v = true ∨ i = .feed v →
    s.phase = .run → s.cnt ≠ 7#3 →
    ∃ t, exec i s = .next t ∧ t.pending = s.pending ++ [v] ∧ t.cnt.toNat = s.cnt.toNat + 1 ∧ t.endian = s.endian ∧
      t.phase = .run ∧ t.out = s.out ∧ t.refusalMark = s.refusalMark ∧ t.event = .ok none ∧ t.carried = none ∧
      t.inputs = s.inputs

/-- R86 at seven filled slots, for BYTE on a digit and for FEED: the eight bits are packed under the run's endianness, the byte is
carried and appended to `out`, the count is 0, and all else stays. -/
def Obligations.EighthDigitFlushesOneByte : Prop :=
  ∀ (i : Instr) (v : Bit) (s : State), i = .byte 0x30#8 ∧ v = false ∨ i = .byte 0x31#8 ∧ v = true ∨ i = .feed v →
    s.phase = .run → s.cnt = 7#3 →
    ∃ t r, exec i s = .next t ∧
      r = pack #v[s.buf[0], s.buf[1], s.buf[2], s.buf[3], s.buf[4], s.buf[5], s.buf[6], v] s.endian ∧
      t.carried = some r ∧ t.event = .ok (some r) ∧ t.out = s.out ++ [r] ∧ t.cnt = 0#3 ∧ t.pending = [] ∧
      t.endian = s.endian ∧ t.phase = .run ∧ t.refusalMark = s.refusalMark ∧ t.inputs = s.inputs

/-- R89: FEED v has exactly the effect of BYTE with the digit code for v, in every state. -/
def Obligations.FeedEqualsByteOfItsDigit : Prop :=
  ∀ s : State, exec (.feed false) s = exec (.byte 0x30#8) s ∧ exec (.feed true) s = exec (.byte 0x31#8) s

/-- R43, R87: the output channel carries a byte exactly in the steps in which an open run accepts its count's eighth digit. -/
def Obligations.ByteCarriedExactlyOnTheEighthDigit : Prop :=
  ∀ s t : State, step s = .next t →
    (t.outValid = true ↔
      ∃ w rest i v, s.inputs = .command w 0 :: rest ∧ decode w = .command i ∧ fedBit i = some v ∧ s.phase = .run ∧ s.cnt = 7#3)

/-! ## START and END -/

/-- R110: START from IDLE or DONE. -/
def Obligations.StartOpensAFreshRun : Prop :=
  ∀ (e : Endian) (s : State), s.phase ≠ .run →
    ∃ t, exec (.start e) s = .next t ∧ t.endian = e ∧ t.cnt = 0#3 ∧ t.pending = [] ∧ t.out = [] ∧ t.phase = .run ∧
      t.status = (match e with | .little => 0x10#8 | .big => 0x18#8) ∧ t.refusalMark = s.refusalMark ∧
      t.event = .ok none ∧ t.carried = none ∧ t.inputs = s.inputs

/-- R110, R154: START while a run is open is refused with `RunOpen`, so it changes nothing. -/
def Obligations.StartInAnOpenRunIsRefused : Prop :=
  ∀ (e : Endian) (s : State), s.phase = .run →
    ∃ t, exec (.start e) s = .next t ∧ RefusedStep s t .runOpen ∧ t.inputs = s.inputs

/-- R111, R155: END closes an open run; the partial byte is dropped, not padded, nothing is carried and `out` is final. -/
def Obligations.EndClosesTheRunAndDropsThePartialByte : Prop :=
  ∀ s : State, s.phase = .run →
    ∃ t, exec .endRun s = .next t ∧ t.cnt = 0#3 ∧ t.pending = [] ∧ t.phase = .done ∧ t.out = s.out ∧ t.endian = s.endian ∧
      t.status = (match s.endian with | .little => 0x20#8 | .big => 0x28#8) ∧ t.refusalMark = s.refusalMark ∧
      t.event = .ok none ∧ t.carried = none ∧ t.inputs = s.inputs

/-- R112: BYTE (any data), FEED and END in IDLE or DONE are refused with `NotRunning` and change nothing. -/
def Obligations.CommandsOutsideARunAreRefused : Prop :=
  ∀ (i : Instr) (s : State), (∃ d, i = .byte d) ∨ (∃ v, i = .feed v) ∨ i = .endRun → s.phase ≠ .run →
    ∃ t, exec i s = .next t ∧ RefusedStep s t .notRunning ∧ t.inputs = s.inputs

/-! ## STATUS -/

/-- R32: the layout of STATUS, bit by bit; PHASE 0b11 is never shown. -/
def Obligations.StatusWordLayout : Prop :=
  ∀ s : State, s.status.extractLsb' 0 3 = s.cnt ∧ s.status.getLsbD 3 = (s.endian == .big) ∧
    s.status.extractLsb' 4 2 = (match s.phase with | .idle => 0b00#2 | .run => 0b01#2 | .done => 0b10#2) ∧
    s.status.extractLsb' 4 2 ≠ 0b11#2 ∧ s.status.extractLsb' 6 2 = 0b00#2

/-- Reading STATUS back gives the fields it shows, and a byte that no state shows is rejected (U5; the rejection of bits 7:6 is the
model's choice, log entry 8). -/
def Obligations.StatusDecodesToTheFieldsItShows : Prop :=
  (∀ s : State, decodeStatus s.status = .ok (s.phase, s.endian, s.cnt)) ∧
    ∀ (x : Byte) p e c, decodeStatus x = .ok (p, e, c) → x = statusWord p e c

/-! ## Frames and rules of the whole machine -/

/-- For every command that answers a next state, accepted or refused: the later inputs stay and a set mark stays set; `endian` stays
unless the command is START; BYTE and FEED keep the phase, change `out` only by appending the byte carried, and keep the pending bits
when none is carried; END keeps `out` and carries nothing. -/
def Obligations.CommandFrame : Prop :=
  ∀ (i : Instr) (s t : State), exec i s = .next t →
    t.inputs = s.inputs ∧ (s.refusalMark = true → t.refusalMark = true) ∧
    ((∀ e, i ≠ .start e) → t.endian = s.endian) ∧
    ((∃ d, i = .byte d) ∨ (∃ v, i = .feed v) →
      t.phase = s.phase ∧ t.out = s.out ++ t.carried.toList ∧ (t.carried = none → s.pending <+: t.pending)) ∧
    (i = .endRun → t.out = s.out ∧ t.carried = none)

/-- R112: in each phase each command is accepted or refused as the table says, with the reason it gives; a refused command changes
nothing (R12), an accepted one leaves the mark and takes the phase where the table says. -/
def Obligations.PhaseTable : Prop :=
  ∀ (i : Instr) (s : State), ∃ t, exec i s = .next t ∧
    match s.phase, i with
    | .run, .start _ => RefusedStep s t .runOpen
    | .run, .byte _ => t.phase = .run ∧ t.refusalMark = s.refusalMark ∧ ∃ e, t.event = .ok e
    | .run, .feed _ => t.phase = .run ∧ t.refusalMark = s.refusalMark ∧ ∃ e, t.event = .ok e
    | .run, .endRun => t.phase = .done ∧ t.refusalMark = s.refusalMark ∧ t.event = .ok none
    | .idle, .start _ => t.phase = .run ∧ t.refusalMark = s.refusalMark ∧ t.event = .ok none
    | .done, .start _ => t.phase = .run ∧ t.refusalMark = s.refusalMark ∧ t.event = .ok none
    | .idle, _ => RefusedStep s t .notRunning
    | .done, _ => RefusedStep s t .notRunning

/-- R12: the refusal mark is set exactly by a refusal, and no later step clears it, reset included. -/
def Obligations.RefusalMarkIsSetByRefusalsOnly : Prop :=
  ∀ s t : State, step s = .next t → (t.refusalMark = true ↔ s.refusalMark = true ∨ ∃ r, t.event = .refuse r)

/-- R25, R154: the endianness changes only by reset or by a START accepted outside a run; within a run, only by reset. -/
def Obligations.EndiannessChangesOnlyBetweenRuns : Prop :=
  ∀ s t : State, step s = .next t → t.endian ≠ s.endian →
    s.rst = true ∨ (s.phase ≠ .run ∧ t.phase = .run ∧ ∃ rest, s.inputs = .command (encode (.start t.endian)) 0 :: rest)

/-- R27: while a run is open, a step other than reset only appends the byte it carries to `out`; after the run, `out` stays until
the next accepted START or reset. -/
def Obligations.OutIsAppendOnlyInARunAndFinalAfterIt : Prop :=
  ∀ s t : State, step s = .next t → s.rst = false →
    (s.phase = .run → t.out = s.out ++ t.carried.toList) ∧
    (s.phase = .done → (t.out = s.out ∧ t.phase = .done ∨ t.out = [] ∧ t.phase = .run) ∧ t.carried = none)

/-- R26: only reset leads to IDLE, only an accepted START to RUN, and only END accepted in RUN to DONE. -/
def Obligations.PhaseChangesOnlyByResetStartAndEnd : Prop :=
  ∀ s t : State, step s = .next t → t.phase ≠ s.phase →
    match t.phase with
    | .idle => s.rst = true
    | .run => s.phase ≠ .run ∧ ∃ rest, s.inputs = .command (encode (.start t.endian)) 0 :: rest
    | .done => s.phase = .run ∧ ∃ rest, s.inputs = .command (encode .endRun) 0 :: rest

/-- R24, R34: what the slots at index `cnt` and above hold, and which free values come next, no number of steps ever shows: from two
states that differ only there, the same bytes are carried and the states stay alike. -/
def Obligations.StaleSlotsAreUnobservable : Prop :=
  ∀ (k : Nat) (s s' t : State) (bs : List Byte), AgreeUpToStale s s' → runSteps k s = some (bs, t) →
    ∃ t', runSteps k s' = some (bs, t') ∧ AgreeUpToStale t t' ∧ t'.status = t.status

/-! ## Runs -/

/-- R23, R87, R90: after START and any number of BYTE and FEED commands, the count is the number of fed bits modulo 8, the pending
bits are those since the last flush, and `out` is every eight fed bits packed in order. -/
def Obligations.OpenRunHoldsTheFedBits : Prop :=
  ∀ (s : State) (e : Endian) (is : List Instr), s.phase ≠ .run → (∀ i ∈ is, (∃ d, i = .byte d) ∨ ∃ v, i = .feed v) →
    let f := is.filterMap fedBit
    ∃ t, execAll (.start e :: is) s = .next t ∧ t.phase = .run ∧ t.endian = e ∧ t.cnt.toNat = f.length % 8 ∧
      t.pending = f.drop (8 * (f.length / 8)) ∧ t.out.length = f.length / 8 ∧
      (∀ j < f.length / 8, t.out[j]? = some (pack (Vector.ofFn fun k : Fin 8 => f.getD (8 * j + k) false) e)) ∧
      t.refusalMark = s.refusalMark

/-- R114, R115: the closed form of a run: `floor(D / 8)` bytes, the `j`-th packing the digits `8j` to `8j + 7`, the rest dropped. -/
def Obligations.RunGivesItsClosedForm : Prop :=
  ∀ (s : State) (x : List Byte) (e : Endian), s.phase ≠ .run →
    let f := digitBits x
    ∃ t, execAll (runProgram x e) s = .next t ∧ t.phase = .done ∧ t.out.length = f.length / 8 ∧
      (∀ j < f.length / 8, t.out[j]? = some (pack (Vector.ofFn fun k : Fin 8 => f.getD (8 * j + k) false) e)) ∧
      t.cnt = 0#3 ∧ t.endian = e ∧ t.refusalMark = s.refusalMark

/-- R53: for a host that presents START, one BYTE for each input byte and END, with any pauses and any waits for `cmd_ready` between
them, the bytes the output channel carries are the closed form of the run, and so is `out` after it. -/
def Obligations.StreamingEngineEqualsTheBatchRun : Prop :=
  ∀ (s : State) (x : List Byte) (e : Endian), s.phase ≠ .run → resetFree s.inputs = true →
    presentedWords s.inputs = (runProgram x e).map encode →
    ∃ t, runSteps (stepsTaken s.inputs) s = some (packAll e (digitBits x), t) ∧ t.out = packAll e (digitBits x) ∧
      t.phase = .done ∧ t.refusalMark = s.refusalMark ∧ t.inputs = []

/-- R116, R117: inputs with the same digits give the same bytes and the same STATUS, from any two states outside a run. -/
def Obligations.NonDigitsAreTransparentAndRunsDeterministic : Prop :=
  ∀ (s s' : State) (x y : List Byte) (e : Endian), s.phase ≠ .run → s'.phase ≠ .run →
    x.filter (fun d => (classify d).isSome) = y.filter (fun d => (classify d).isSome) →
    ∃ t t', execAll (runProgram x e) s = .next t ∧ execAll (runProgram y e) s' = .next t' ∧ t'.out = t.out ∧ t'.status = t.status

/-- R28: `out` has no capacity limit: every byte sequence, of any length, is the result of a run, under either endianness. -/
def Obligations.EveryByteSequenceIsTheResultOfARun : Prop :=
  ∀ (e : Endian) (bytes : List Byte), ∃ x : List Byte, ∀ s : State, s.phase ≠ .run →
    ∃ t, execAll (runProgram x e) s = .next t ∧ t.out = bytes

/-- R113: a list of commands is executed without a refusal exactly when it keeps the protocol from the phase it starts in. -/
def Obligations.ProtocolKeptExactlyWhenNeverRefused : Prop :=
  ∀ (is : List Instr) (s : State),
    ∃ t, execAll is s = .next t ∧ (t.refusalMark = true ↔ s.refusalMark = true ∨ keepsProtocol s.phase is = false)

/-- R120: the step that accepts END observes `out` and STATUS of the finished run if the refusal mark is not set, and nothing if it
is; no other step, reset included, observes anything. -/
def Obligations.RunIsObservedAtItsEnd : Prop :=
  ∀ s t : State, step s = .next t →
    (∀ rest, s.inputs = .command 0x300#10 0 :: rest → s.phase = .run →
      observation s t =
        if s.refusalMark then none
        else some ⟨s.out, match s.endian with | .little => 0x20#8 | .big => 0x28#8⟩) ∧
    (observation s t ≠ none → s.phase = .run ∧ ∃ rest, s.inputs = .command 0x300#10 0 :: rest)

/-! ## Assembler -/

/-- R72 to R74: what each line stands for, and the operands that are rejected. -/
def Obligations.WrittenLinesStandForTheirCommands : Prop :=
  (∀ d : Byte, expand (.byte d.toNat) = some [.byte d]) ∧ (∀ n > 255, expand (.byte n) = none) ∧
    expand (.feed 0) = some [.feed false] ∧ expand (.feed 1) = some [.feed true] ∧ (∀ n > 1, expand (.feed n) = none) ∧
    (∀ e, expand (.start e) = some [.start e]) ∧ expand .endRun = some [.endRun] ∧
    (∀ s, expand (.digits s) = some (s.map .byte)) ∧
    ∀ e s, expand (.run e s) = some (.start e :: s.map .byte ++ [.endRun])

/-- R72: no written command stream assembles to a reserved word. -/
def Obligations.AssemblerSpellsNoReservedWord : Prop :=
  ∀ (text : List Nat) (words : List Cmd), assembleWords text = some words →
    ∀ w ∈ words, wordLegal w = true ∧ ∃ i, decode w = .command i
end

