-- ==== Sys2Proof/Laws/State.lean ====
section
/-!
SUPPORT. One lemma for each field after each shared operation, so that no proof unfolds a record update. `feedBit` is a choice
between `flush` and `appendBit`; its lemmas are in Laws/Ops.lean.
-/

namespace Sys2Proof.Machine

@[simp] theorem State.conclude_buf (s : State) (e : Event) : (s.conclude e).buf = s.buf := rfl
@[simp] theorem State.conclude_cnt (s : State) (e : Event) : (s.conclude e).cnt = s.cnt := rfl
@[simp] theorem State.conclude_endian (s : State) (e : Event) : (s.conclude e).endian = s.endian := rfl
@[simp] theorem State.conclude_phase (s : State) (e : Event) : (s.conclude e).phase = s.phase := rfl
@[simp] theorem State.conclude_out (s : State) (e : Event) : (s.conclude e).out = s.out := rfl
@[simp] theorem State.conclude_refusalMark (s : State) (e : Event) : (s.conclude e).refusalMark = s.refusalMark := rfl
@[simp] theorem State.conclude_event (s : State) (e : Event) : (s.conclude e).event = e := rfl
@[simp] theorem State.conclude_inputs (s : State) (e : Event) : (s.conclude e).inputs = s.inputs := rfl
@[simp] theorem State.conclude_freeIndex (s : State) (e : Event) : (s.conclude e).freeIndex = s.freeIndex + 1 := rfl

@[simp] theorem State.hold_buf (s : State) : s.hold.buf = s.buf := rfl
@[simp] theorem State.hold_cnt (s : State) : s.hold.cnt = s.cnt := rfl
@[simp] theorem State.hold_endian (s : State) : s.hold.endian = s.endian := rfl
@[simp] theorem State.hold_phase (s : State) : s.hold.phase = s.phase := rfl
@[simp] theorem State.hold_out (s : State) : s.hold.out = s.out := rfl
@[simp] theorem State.hold_refusalMark (s : State) : s.hold.refusalMark = s.refusalMark := rfl
@[simp] theorem State.hold_event (s : State) : s.hold.event = .quiet := rfl
@[simp] theorem State.hold_inputs (s : State) : s.hold.inputs = s.inputs := rfl
@[simp] theorem State.hold_freeIndex (s : State) : s.hold.freeIndex = s.freeIndex + 1 := rfl

@[simp] theorem State.refuse_buf (s : State) (r : RefuseReason) : (s.refuse r).buf = s.buf := rfl
@[simp] theorem State.refuse_cnt (s : State) (r : RefuseReason) : (s.refuse r).cnt = s.cnt := rfl
@[simp] theorem State.refuse_endian (s : State) (r : RefuseReason) : (s.refuse r).endian = s.endian := rfl
@[simp] theorem State.refuse_phase (s : State) (r : RefuseReason) : (s.refuse r).phase = s.phase := rfl
@[simp] theorem State.refuse_out (s : State) (r : RefuseReason) : (s.refuse r).out = s.out := rfl
@[simp] theorem State.refuse_refusalMark (s : State) (r : RefuseReason) : (s.refuse r).refusalMark = true := rfl
@[simp] theorem State.refuse_event (s : State) (r : RefuseReason) : (s.refuse r).event = .refuse r := rfl
@[simp] theorem State.refuse_inputs (s : State) (r : RefuseReason) : (s.refuse r).inputs = s.inputs := rfl
@[simp] theorem State.refuse_freeIndex (s : State) (r : RefuseReason) : (s.refuse r).freeIndex = s.freeIndex + 1 := rfl

@[simp] theorem State.accept_buf (s : State) : s.accept.buf = s.buf := rfl
@[simp] theorem State.accept_cnt (s : State) : s.accept.cnt = s.cnt := rfl
@[simp] theorem State.accept_endian (s : State) : s.accept.endian = s.endian := rfl
@[simp] theorem State.accept_phase (s : State) : s.accept.phase = s.phase := rfl
@[simp] theorem State.accept_out (s : State) : s.accept.out = s.out := rfl
@[simp] theorem State.accept_refusalMark (s : State) : s.accept.refusalMark = s.refusalMark := rfl
@[simp] theorem State.accept_event (s : State) : s.accept.event = .ok none := rfl
@[simp] theorem State.accept_inputs (s : State) : s.accept.inputs = s.inputs := rfl
@[simp] theorem State.accept_freeIndex (s : State) : s.accept.freeIndex = s.freeIndex + 1 := rfl

@[simp] theorem State.emit_buf (s : State) (b : Byte) : (s.emit b).buf = s.buf := rfl
@[simp] theorem State.emit_cnt (s : State) (b : Byte) : (s.emit b).cnt = s.cnt := rfl
@[simp] theorem State.emit_endian (s : State) (b : Byte) : (s.emit b).endian = s.endian := rfl
@[simp] theorem State.emit_phase (s : State) (b : Byte) : (s.emit b).phase = s.phase := rfl
@[simp] theorem State.emit_out (s : State) (b : Byte) : (s.emit b).out = s.out ++ [b] := rfl
@[simp] theorem State.emit_refusalMark (s : State) (b : Byte) : (s.emit b).refusalMark = s.refusalMark := rfl
@[simp] theorem State.emit_event (s : State) (b : Byte) : (s.emit b).event = .ok (some b) := rfl
@[simp] theorem State.emit_inputs (s : State) (b : Byte) : (s.emit b).inputs = s.inputs := rfl
@[simp] theorem State.emit_freeIndex (s : State) (b : Byte) : (s.emit b).freeIndex = s.freeIndex + 1 := rfl

@[simp] theorem State.appendBit_buf (s : State) (v : Bit) :
    (s.appendBit v).buf = s.buf.set s.cnt.toNat v (cnt_lt_slots s.cnt) := rfl
@[simp] theorem State.appendBit_cnt (s : State) (v : Bit) : (s.appendBit v).cnt = s.cnt + 1#3 := rfl
@[simp] theorem State.appendBit_endian (s : State) (v : Bit) : (s.appendBit v).endian = s.endian := rfl
@[simp] theorem State.appendBit_phase (s : State) (v : Bit) : (s.appendBit v).phase = s.phase := rfl
@[simp] theorem State.appendBit_out (s : State) (v : Bit) : (s.appendBit v).out = s.out := rfl
@[simp] theorem State.appendBit_refusalMark (s : State) (v : Bit) : (s.appendBit v).refusalMark = s.refusalMark := rfl
@[simp] theorem State.appendBit_event (s : State) (v : Bit) : (s.appendBit v).event = s.event := rfl
@[simp] theorem State.appendBit_inputs (s : State) (v : Bit) : (s.appendBit v).inputs = s.inputs := rfl
@[simp] theorem State.appendBit_freeIndex (s : State) (v : Bit) : (s.appendBit v).freeIndex = s.freeIndex := rfl

@[simp] theorem State.flush_buf (s : State) (v : Bit) :
    (s.flush v).buf = s.buf.set 7 (if Config.slot7Written s.freeIndex then v else s.buf[7]) := rfl
@[simp] theorem State.flush_cnt (s : State) (v : Bit) : (s.flush v).cnt = 0#3 := rfl
@[simp] theorem State.flush_endian (s : State) (v : Bit) : (s.flush v).endian = s.endian := rfl
@[simp] theorem State.flush_phase (s : State) (v : Bit) : (s.flush v).phase = s.phase := rfl
@[simp] theorem State.flush_out (s : State) (v : Bit) : (s.flush v).out = s.out ++ [s.flushByte v] := rfl
@[simp] theorem State.flush_refusalMark (s : State) (v : Bit) : (s.flush v).refusalMark = s.refusalMark := rfl
@[simp] theorem State.flush_event (s : State) (v : Bit) : (s.flush v).event = .ok (some (s.flushByte v)) := rfl
@[simp] theorem State.flush_inputs (s : State) (v : Bit) : (s.flush v).inputs = s.inputs := rfl
@[simp] theorem State.flush_freeIndex (s : State) (v : Bit) : (s.flush v).freeIndex = s.freeIndex + 1 := rfl

@[simp] theorem State.openRun_buf (s : State) (e : Endian) : (s.openRun e).buf = s.buf := rfl
@[simp] theorem State.openRun_cnt (s : State) (e : Endian) : (s.openRun e).cnt = 0#3 := rfl
@[simp] theorem State.openRun_endian (s : State) (e : Endian) : (s.openRun e).endian = e := rfl
@[simp] theorem State.openRun_phase (s : State) (e : Endian) : (s.openRun e).phase = .run := rfl
@[simp] theorem State.openRun_out (s : State) (e : Endian) : (s.openRun e).out = [] := rfl
@[simp] theorem State.openRun_refusalMark (s : State) (e : Endian) : (s.openRun e).refusalMark = s.refusalMark := rfl
@[simp] theorem State.openRun_event (s : State) (e : Endian) : (s.openRun e).event = .ok none := rfl
@[simp] theorem State.openRun_inputs (s : State) (e : Endian) : (s.openRun e).inputs = s.inputs := rfl
@[simp] theorem State.openRun_freeIndex (s : State) (e : Endian) : (s.openRun e).freeIndex = s.freeIndex + 1 := rfl

@[simp] theorem State.closeRun_buf (s : State) : s.closeRun.buf = s.buf := rfl
@[simp] theorem State.closeRun_cnt (s : State) : s.closeRun.cnt = 0#3 := rfl
@[simp] theorem State.closeRun_endian (s : State) : s.closeRun.endian = s.endian := rfl
@[simp] theorem State.closeRun_phase (s : State) : s.closeRun.phase = .done := rfl
@[simp] theorem State.closeRun_out (s : State) : s.closeRun.out = s.out := rfl
@[simp] theorem State.closeRun_refusalMark (s : State) : s.closeRun.refusalMark = s.refusalMark := rfl
@[simp] theorem State.closeRun_event (s : State) : s.closeRun.event = .ok none := rfl
@[simp] theorem State.closeRun_inputs (s : State) : s.closeRun.inputs = s.inputs := rfl
@[simp] theorem State.closeRun_freeIndex (s : State) : s.closeRun.freeIndex = s.freeIndex + 1 := rfl

@[simp] theorem State.resetEngine_buf (s : State) : s.resetEngine.buf = s.buf := rfl
@[simp] theorem State.resetEngine_cnt (s : State) : s.resetEngine.cnt = 0#3 := rfl
@[simp] theorem State.resetEngine_endian (s : State) : s.resetEngine.endian = .little := rfl
@[simp] theorem State.resetEngine_phase (s : State) : s.resetEngine.phase = .idle := rfl
@[simp] theorem State.resetEngine_out (s : State) : s.resetEngine.out = [] := rfl
@[simp] theorem State.resetEngine_refusalMark (s : State) : s.resetEngine.refusalMark = s.refusalMark := rfl
@[simp] theorem State.resetEngine_event (s : State) : s.resetEngine.event = .reset := rfl
@[simp] theorem State.resetEngine_inputs (s : State) : s.resetEngine.inputs = s.inputs := rfl
@[simp] theorem State.resetEngine_freeIndex (s : State) : s.resetEngine.freeIndex = s.freeIndex + 1 := rfl

end Sys2Proof.Machine
end

