-- ==== Sys2Proof/Laws/Ops.lean ====
section
/-!
SUPPORT. One specification lemma for each shared operation and view: what it can do, so that later proofs cite it and do not unfold
it.
-/

namespace Sys2Proof.Machine

/-- R86: a bit fed at `cnt = 7` flushes. -/
theorem feedBit_of_full {s : State} (v : Bit) (h : s.cnt = 7#3) : s.feedBit v = s.flush v := by
  simp [State.feedBit, h]

/-- R86: a bit fed below 7 is appended. -/
theorem feedBit_of_room {s : State} (v : Bit) (h : s.cnt ≠ 7#3) : s.feedBit v = (s.appendBit v).accept := by
  simp [State.feedBit, h]

@[simp] theorem State.feedBit_endian (s : State) (v : Bit) : (s.feedBit v).endian = s.endian := by
  by_cases h : s.cnt = 7#3 <;> simp [State.feedBit, h]

@[simp] theorem State.feedBit_phase (s : State) (v : Bit) : (s.feedBit v).phase = s.phase := by
  by_cases h : s.cnt = 7#3 <;> simp [State.feedBit, h]

@[simp] theorem State.feedBit_refusalMark (s : State) (v : Bit) : (s.feedBit v).refusalMark = s.refusalMark := by
  by_cases h : s.cnt = 7#3 <;> simp [State.feedBit, h]

@[simp] theorem State.feedBit_inputs (s : State) (v : Bit) : (s.feedBit v).inputs = s.inputs := by
  by_cases h : s.cnt = 7#3 <;> simp [State.feedBit, h]

/-- R90: the count goes up by 1 modulo 8, flush or not. -/
theorem State.feedBit_cnt (s : State) (v : Bit) : (s.feedBit v).cnt = s.cnt + 1#3 := by
  by_cases h : s.cnt = 7#3 <;> simp [State.feedBit, h]

/-- The count after a bit, as a number. -/
theorem cnt_succ_toNat {c : BitVec 3} (h : c ≠ 7#3) : (c + 1#3).toNat = c.toNat + 1 := by
  revert c; decide

/-- The pending bits are as many as the count says. -/
@[simp] theorem State.pending_length (s : State) : s.pending.length = s.cnt.toNat := by
  have := s.cnt.isLt
  simp [State.pending]
  omega

/-- A count of 0 leaves nothing pending, whatever the slots hold (R24). -/
theorem pending_of_cnt_zero {s : State} (h : s.cnt = 0#3) : s.pending = [] := by
  simp [State.pending, h]

/-- R86: an appended bit is pending after the bits pending before. -/
theorem State.appendBit_pending (s : State) (v : Bit) (h : s.cnt ≠ 7#3) : (s.appendBit v).pending = s.pending ++ [v] := by
  have hlt : s.cnt.toNat < 7 := by
    have := s.cnt.isLt
    have : s.cnt.toNat ≠ 7 := fun h7 => h (BitVec.eq_of_toNat_eq h7)
    omega
  simp only [State.pending, State.appendBit, cnt_succ_toNat h]
  apply List.ext_getElem
  · simp
    omega
  · intro n h1 h2
    simp only [List.getElem_take, Vector.getElem_toList, Vector.getElem_set]
    by_cases hn : s.cnt.toNat = n
    · subst hn
      rw [List.getElem_append_right (by simp)]
      simp
    · rw [List.getElem_append_left (by simp at h1 ⊢; omega)]
      simp [hn]

/-- An octet is its eight slots. -/
theorem octet_eq (b : Vector Bit 8) : b = #v[b[0], b[1], b[2], b[3], b[4], b[5], b[6], b[7]] := by
  ext i hi
  have : i = 0 ∨ i = 1 ∨ i = 2 ∨ i = 3 ∨ i = 4 ∨ i = 5 ∨ i = 6 ∨ i = 7 := by omega
  rcases this with rfl | rfl | rfl | rfl | rfl | rfl | rfl | rfl <;> rfl

/-- R86: `r = pack(buf[0], ..., buf[6], v, endian)`. -/
theorem State.flushByte_eq (s : State) (v : Bit) :
    s.flushByte v = pack #v[s.buf[0], s.buf[1], s.buf[2], s.buf[3], s.buf[4], s.buf[5], s.buf[6], v] s.endian := by
  unfold State.flushByte
  congr 1
  rw [octet_eq (s.buf.set 7 v)]
  simp

@[simp] theorem State.hold_pending (s : State) : s.hold.pending = s.pending := rfl
@[simp] theorem State.hold_carried (s : State) : s.hold.carried = none := rfl

@[simp] theorem State.refuse_pending (s : State) (r : RefuseReason) : (s.refuse r).pending = s.pending := rfl
@[simp] theorem State.refuse_carried (s : State) (r : RefuseReason) : (s.refuse r).carried = none := rfl

@[simp] theorem State.accept_pending (s : State) : s.accept.pending = s.pending := rfl
@[simp] theorem State.accept_carried (s : State) : s.accept.carried = none := rfl

@[simp] theorem State.flush_pending (s : State) (v : Bit) : (s.flush v).pending = [] := pending_of_cnt_zero rfl
@[simp] theorem State.flush_carried (s : State) (v : Bit) : (s.flush v).carried = some (s.flushByte v) := rfl

@[simp] theorem State.openRun_pending (s : State) (e : Endian) : (s.openRun e).pending = [] := pending_of_cnt_zero rfl
@[simp] theorem State.openRun_carried (s : State) (e : Endian) : (s.openRun e).carried = none := rfl

@[simp] theorem State.closeRun_pending (s : State) : s.closeRun.pending = [] := pending_of_cnt_zero rfl
@[simp] theorem State.closeRun_carried (s : State) : s.closeRun.carried = none := rfl

@[simp] theorem State.resetEngine_pending (s : State) : s.resetEngine.pending = [] := pending_of_cnt_zero rfl
@[simp] theorem State.resetEngine_carried (s : State) : s.resetEngine.carried = none := rfl

/-- A refused step as R12 describes it. -/
theorem refuse_refusedStep (s : State) (r : RefuseReason) : RefusedStep s (s.refuse r) r := by
  simp [RefusedStep, SameElements]

/-- Classification has three cases (R80). -/
theorem classify_cases (d : Byte) :
    (d = Config.digitOne ∧ classify d = some true) ∨ (d = Config.digitZero ∧ classify d = some false) ∨
      (d ≠ Config.digitOne ∧ d ≠ Config.digitZero ∧ classify d = none) := by
  by_cases h1 : d = Config.digitOne
  · exact .inl ⟨h1, by simp [classify, h1]⟩
  · by_cases h0 : d = Config.digitZero
    · exact .inr (.inl ⟨h0, by simp [h0]; decide⟩)
    · exact .inr (.inr ⟨h1, h0, by simp [classify, h1, h0]⟩)

/-- What the ports hold, case by case (R42, R45): nothing accepted, a command still waiting, reset, or an accepted command. -/
theorem fetch_cases (s : State) :
    (s.inputs = [] ∧ fetch s = .hold s) ∨
    (∃ rest, s.inputs = .quiet :: rest ∧ fetch s = .hold { s with inputs := rest }) ∨
    (∃ w n rest, s.inputs = .command w (n + 1) :: rest ∧ fetch s = .hold { s with inputs := .command w n :: rest }) ∨
    (∃ p rest, s.inputs = .reset p :: rest ∧ fetch s = .reset { s with inputs := rest }) ∨
    (∃ w rest, s.inputs = .command w 0 :: rest ∧ fetch s = .command w { s with inputs := rest }) := by
  cases hi : s.inputs with
  | nil => exact .inl ⟨rfl, by simp [fetch, hi]⟩
  | cons a rest =>
    cases a with
    | quiet => exact .inr (.inl ⟨rest, rfl, by simp [fetch, hi]⟩)
    | reset p => exact .inr (.inr (.inr (.inl ⟨p, rest, rfl, by simp [fetch, hi]⟩)))
    | command w n =>
      cases n with
      | zero => exact .inr (.inr (.inr (.inr ⟨w, rest, rfl, by simp [fetch, hi]⟩)))
      | succ n => exact .inr (.inr (.inl ⟨w, n, rest, rfl, by simp [fetch, hi]⟩))

end Sys2Proof.Machine
end

