-- ==== Sys2Proof/Laws/PerInstr.lean ====
section
/-!
SUPPORT. A fact about every instruction as it is written and encoded, one lemma for each constructor: the instruction is well
formed, and its word is a legal word (spec/30_encoding.md R67, R68) with the opcode of R61.
-/

namespace Sys2Proof.Laws.Encoding

/-- R61: the opcode of a command. -/
def opcode : Instr → BitVec 2
  | .byte _ => 0b00#2
  | .feed _ => 0b01#2
  | .start _ => 0b10#2
  | .endRun => 0b11#2

def Statement (i : Instr) : Prop :=
  i.wellFormed = true ∧ wordLegal (encode i) = true ∧ opField (encode i) = opcode i

theorem byte (d : Byte) : Statement (.byte d) := by
  refine ⟨rfl, ?_⟩
  revert d
  decide

theorem feed (v : Bit) : Statement (.feed v) := by
  refine ⟨rfl, ?_⟩
  revert v
  decide

theorem start (e : Endian) : Statement (.start e) := by
  refine ⟨rfl, ?_⟩
  cases e <;> decide

theorem endRun : Statement .endRun := ⟨rfl, by decide⟩

end Sys2Proof.Laws.Encoding
end

