-- ==== Sys2Proof/Laws/Step.lean ====
section
/-!
SUPPORT. What each command and a whole step can do, said once.
-/

namespace Sys2Proof.Machine

/-- Everything `exec` can do with a command that its phase accepts or not (R112): the next state, by command. -/
theorem exec_eq (i : Instr) (s : State) :
    exec i s = .next (
      match i with
      | .byte d => if s.phase = .run then ((classify d).elim s.accept s.feedBit) else s.refuse .notRunning
      | .feed v => if s.phase = .run then s.feedBit v else s.refuse .notRunning
      | .start e => if s.phase = .run then s.refuse .runOpen else s.openRun e
      | .endRun => if s.phase = .run then s.closeRun else s.refuse .notRunning) := by
  cases i with
  | byte d =>
    by_cases h : s.phase = .run <;> simp [exec, execByte, h]
    cases classify d <;> rfl
  | feed v => by_cases h : s.phase = .run <;> simp [exec, execFeed, h]
  | start e => by_cases h : s.phase = .run <;> simp [exec, execStart, h]
  | endRun => by_cases h : s.phase = .run <;> simp [exec, execEndRun, h]

/-- Everything an executed command can do (R12, R86, R110, R111): be refused, be accepted without effect, append a bit, flush,
open a run or close one. -/
theorem exec_cases {i : Instr} {s t : State} (h : exec i s = .next t) :
    (∃ r, accepts s.phase i = false ∧ t = s.refuse r ∧ r = (if s.phase = .run then .runOpen else .notRunning)) ∨
    (s.phase = .run ∧ (∃ d, i = .byte d) ∧ fedBit i = none ∧ t = s.accept) ∨
    (∃ v, s.phase = .run ∧ fedBit i = some v ∧ s.cnt ≠ 7#3 ∧ t = (s.appendBit v).accept) ∨
    (∃ v, s.phase = .run ∧ fedBit i = some v ∧ s.cnt = 7#3 ∧ t = s.flush v) ∨
    (∃ e, s.phase ≠ .run ∧ i = .start e ∧ t = s.openRun e) ∨
    (s.phase = .run ∧ i = .endRun ∧ t = s.closeRun) := by
  rw [exec_eq] at h
  injection h with h
  subst h
  have fed (v : Bit) :
      (s.cnt ≠ 7#3 ∧ s.feedBit v = (s.appendBit v).accept) ∨ (s.cnt = 7#3 ∧ s.feedBit v = s.flush v) := by
    by_cases hc : s.cnt = 7#3
    · exact .inr ⟨hc, feedBit_of_full v hc⟩
    · exact .inl ⟨hc, feedBit_of_room v hc⟩
  by_cases hp : s.phase = .run
  · cases i with
    | byte d =>
      cases hc : classify d with
      | none => exact .inr (.inl ⟨hp, ⟨d, rfl⟩, hc, by simp [hp, hc]⟩)
      | some v =>
        rcases fed v with ⟨h7, hf⟩ | ⟨h7, hf⟩
        · exact .inr (.inr (.inl ⟨v, hp, hc, h7, by simp [hp, hc, hf]⟩))
        · exact .inr (.inr (.inr (.inl ⟨v, hp, hc, h7, by simp [hp, hc, hf]⟩)))
    | feed v =>
      rcases fed v with ⟨h7, hf⟩ | ⟨h7, hf⟩
      · exact .inr (.inr (.inl ⟨v, hp, rfl, h7, by simp [hp, hf]⟩))
      · exact .inr (.inr (.inr (.inl ⟨v, hp, rfl, h7, by simp [hp, hf]⟩)))
    | start e => exact .inl ⟨.runOpen, by simp [accepts, hp]⟩
    | endRun => exact .inr (.inr (.inr (.inr (.inr ⟨hp, rfl, by simp [hp]⟩))))
  · cases i with
    | start e => exact .inr (.inr (.inr (.inr (.inl ⟨e, hp, rfl, by simp [hp]⟩))))
    | byte d => exact .inl ⟨.notRunning, by cases hq : s.phase <;> simp_all [accepts], by simp [hp]⟩
    | feed v => exact .inl ⟨.notRunning, by cases hq : s.phase <;> simp_all [accepts], by simp [hp]⟩
    | endRun => exact .inl ⟨.notRunning, by cases hq : s.phase <;> simp_all [accepts], by simp [hp]⟩

/-- A step that finds an accepted command. -/
theorem step_of_command {s : State} {w : Cmd} {rest : List HostInput} (h : s.inputs = .command w 0 :: rest) :
    step s =
      match decode w with
      | .command i => exec i { s with inputs := rest }
      | .reserved _ => .next (State.refuse { s with inputs := rest } .reserved) := by
  cases hd : decode w <;> simp [step, fetch, h, hd]

/-- A step that finds reset asserted. -/
theorem step_of_reset {s : State} {p : Option Cmd} {rest : List HostInput} (h : s.inputs = .reset p :: rest) :
    step s = .next (State.resetEngine { s with inputs := rest }) := by
  simp [step, fetch, h]

/-- A step that finds a command the engine is not yet ready to take. -/
theorem step_of_waiting {s : State} {w : Cmd} {n : Nat} {rest : List HostInput} (h : s.inputs = .command w (n + 1) :: rest) :
    step s = .next (State.hold { s with inputs := .command w n :: rest }) := by
  simp [step, fetch, h]

/-- A step that finds no command. -/
theorem step_of_quiet {s : State} {rest : List HostInput} (h : s.inputs = .quiet :: rest) :
    step s = .next (State.hold { s with inputs := rest }) := by
  simp [step, fetch, h]

/-- A step with nothing left to present. -/
theorem step_of_nil {s : State} (h : s.inputs = []) : step s = .next s.hold := by
  simp [step, fetch, h]

/-- Everything a step can do: hold, reset, refuse a reserved word, or execute the accepted command. -/
theorem step_cases {s t : State} (h : step s = .next t) :
    (∃ ins, t = State.hold { s with inputs := ins } ∧ s.rst = false) ∨
    (∃ p rest, s.inputs = .reset p :: rest ∧ t = State.resetEngine { s with inputs := rest }) ∨
    (∃ w rest, s.inputs = .command w 0 :: rest ∧ decode w = .reserved w ∧
      t = State.refuse { s with inputs := rest } .reserved) ∨
    (∃ w rest i, s.inputs = .command w 0 :: rest ∧ decode w = .command i ∧ exec i { s with inputs := rest } = .next t) := by
  rcases fetch_cases s with ⟨hi, -⟩ | ⟨rest, hi, -⟩ | ⟨w, n, rest, hi, -⟩ | ⟨p, rest, hi, -⟩ | ⟨w, rest, hi, -⟩
  · rw [step_of_nil hi] at h
    injection h with h
    exact .inl ⟨[], by rw [← h, ← hi], by simp [State.rst, hi]⟩
  · rw [step_of_quiet hi] at h
    injection h with h
    exact .inl ⟨rest, h.symm, by simp [State.rst, hi]⟩
  · rw [step_of_waiting hi] at h
    injection h with h
    exact .inl ⟨_, h.symm, by simp [State.rst, hi]⟩
  · rw [step_of_reset hi] at h
    injection h with h
    exact .inr (.inl ⟨p, rest, hi, h.symm⟩)
  · rw [step_of_command hi] at h
    cases hd : decode w with
    | command i => exact .inr (.inr (.inr ⟨w, rest, i, hi, hd, by simpa [hd] using h⟩))
    | reserved w' =>
      have hw : w' = w := by
        unfold decode at hd
        split_ifs at hd
        simpa using hd.symm
      subst hw
      refine .inr (.inr (.inl ⟨w', rest, hi, hd, ?_⟩))
      simpa [hd] using h.symm

end Sys2Proof.Machine
end

