-- ==== Sys2Proof/Tests/Slice0.lean ====
section
/-!
SUPPORT. The model's own tests. Expected results are those of spec/95_test_vectors.md (the row is named) or written out from the
encodings of spec/30_encoding.md. Then, for each statement of Certificates/Slice0/Obligations.lean that has hypotheses, a concrete
case that meets them (`witness_…`).
-/

namespace Sys2Proof.Tests

open Sys2Proof Sys2Proof.Machine

/-- A state with the given registers; `bits` fills the slots from 0. Nothing is said of the slots above. -/
def stateOf (p : Phase) (e : Endian) (c : BitVec 3) (bits : List Bit) (ins : List HostInput) : State :=
  { State.reset with
    phase := p, endian := e, cnt := c, inputs := ins
    buf := Vector.ofFn fun k => bits.getD k.val true }

/-- What a test looks at in a step's outcome: count, STATUS, `out`, the byte carried and the refusal mark. -/
def seen : Host.Outcome State Fault Refusal → Option (BitVec 3 × Byte × List Byte × Option Byte × Bool)
  | .next t => some (t.cnt, t.status, t.out, t.carried, t.refusalMark)
  | _ => none

/-! ## Well-formedness: each check refuses an ill-formed term -/

theorem test_feed_word_with_reserved_bit_is_not_legal : wordLegal 0x102#10 = false := by decide
theorem test_start_word_with_reserved_bit_is_not_legal : wordLegal 0x280#10 = false := by decide
theorem test_end_word_with_reserved_bit_is_not_legal : wordLegal 0x301#10 = false := by decide
theorem test_byte_line_above_255_is_ill_formed : (SrcLine.byte 256).wellFormed = false ∧ (SrcLine.byte 255).wellFormed = true := by
  decide
theorem test_feed_line_above_1_is_ill_formed : (SrcLine.feed 2).wellFormed = false ∧ (SrcLine.feed 1).wellFormed = true := by
  decide

/-! ## Decoding (R62 to R65, R69; spec/95_test_vectors.md 2.3) -/

theorem test_decode_byte : decode 0b00_00110001#10 = .command (.byte 0x31#8) := by decide
theorem test_decode_feed : decode 0b01_0000000_1#10 = .command (.feed true) := by decide
theorem test_decode_start : decode 0b10_0000000_1#10 = .command (.start .big) := by decide
theorem test_decode_end : decode 0b11_00000000#10 = .command .endRun := by decide
theorem test_decode_reserved : decode 0x1FF#10 = .reserved 0x1FF#10 ∧ decode 0x380#10 = .reserved 0x380#10 := by decide
theorem test_decode_table_word : decodeTableWord 16 0x200 = some (.start .little) ∧ decodeTableWord 16 0x600 = none := by decide

/-! ## Classification and packing (spec/95_test_vectors.md 2.1, 2.2) -/

theorem test_classify_digits_and_neighbours :
    [0x30#8, 0x31#8, 0x00#8, 0x2F#8, 0x32#8, 0xB0#8, 0xB1#8, 0x70#8].map classify =
      [some false, some true, none, none, none, none, none, none] := by decide

theorem test_pack_rows :
    [pack #v[false, true, false, false, false, false, false, true] .little,
      pack #v[false, true, false, false, false, false, false, true] .big,
      pack #v[false, false, true, true, false, true, false, true] .little,
      pack #v[false, false, true, true, false, true, false, true] .big] = [0x82#8, 0x41#8, 0xAC#8, 0x35#8] := by decide

/-! ## Commands (spec/95_test_vectors.md 2.4, 2.5, 2.6) -/

/-- D-B5 -/
theorem test_byte_flushes_big :
    seen (exec (.byte 0x31#8) (stateOf .run .big 7#3 [false, true, false, false, false, false, false] [])) =
      some (0#3, 0x18#8, [0x41#8], some 0x41#8, false) := by decide
/-- D-B7 -/
theorem test_byte_non_digit_at_seven :
    seen (exec (.byte 0xB1#8) (stateOf .run .little 7#3 [true, true, true, true, true, true, true] [])) =
      some (7#3, 0x17#8, [], none, false) := by decide
/-- D-F1 -/
theorem test_feed_counts :
    seen (exec (.feed true) (stateOf .run .little 3#3 [true, false, true] [])) = some (4#3, 0x14#8, [], none, false) := by decide
/-- D-F2 -/
theorem test_feed_flushes_big :
    seen (exec (.feed false) (stateOf .run .big 7#3 [true, true, true, true, false, false, false] [])) =
      some (0#3, 0x18#8, [0xF0#8], some 0xF0#8, false) := by decide
/-- D-S3 -/
theorem test_start_discards_the_last_run :
    seen (exec (.start .little) { stateOf .done .big 0#3 [] [] with out := [0x41#8] }) = some (0#3, 0x10#8, [], none, false) := by
  decide
/-- D-S4 -/
theorem test_start_in_open_run_is_refused :
    seen (exec (.start .big) (stateOf .run .little 5#3 [] [])) = some (5#3, 0x15#8, [], none, true) := by decide
/-- D-E2 -/
theorem test_end_drops_five_bits :
    seen (exec .endRun (stateOf .run .big 5#3 [] [])) = some (0#3, 0x28#8, [], none, false) := by decide
/-- D-E3 -/
theorem test_end_in_idle_is_refused : seen (exec .endRun State.reset) = some (0#3, 0x00#8, [], none, true) := by decide
/-- D-E5 -/
theorem test_reserved_word_is_refused :
    seen (step (stateOf .run .little 3#3 [] [.command 0x301#10 0])) = some (3#3, 0x13#8, [], none, true) := by decide
/-- D-R3 -/
theorem test_reset_beats_byte :
    seen (step (stateOf .run .little 7#3 [] [.reset (some 0x031#10)])) = some (0#3, 0x00#8, [], none, false) := by decide
/-- P4, line 1 -/
theorem test_first_byte_after_reset_is_refused :
    seen (step (State.reset.withFetchWord 16 0x031)) = some (0#3, 0x00#8, [], none, true) := by decide
/-- D-S2, as the first word after reset -/
theorem test_first_start_after_reset :
    seen (step (State.reset.withFetchWord 16 0x201)) = some (0#3, 0x18#8, [], none, false) := by decide
/-- U5 -/
theorem test_status_with_phase_code_11_faults : decodeStatus 0x30#8 = .error .phaseCode11 := rfl

/-! ## Assembler (R72 to R75) -/

theorem test_assemble_operand_forms :
    assembleWords (codes "BYTE '1'\nBYTE 0x0A ; comment\n\nBYTE 255\nFEED 0\nSTART big\nEND") =
      some [0x031#10, 0x00A#10, 0x0FF#10, 0x100#10, 0x201#10, 0x300#10] := by decide +kernel
/-- The end of P2's source: `\x00` stands for one byte. -/
theorem test_assemble_run_with_escape :
    assembleWords (codes "RUN little \"1\\x000\\n\"") = some [0x200#10, 0x031#10, 0x000#10, 0x030#10, 0x00A#10, 0x300#10] := by
  decide +kernel
theorem test_assemble_rejects :
    ["BYTE 256", "FEED 2", "FEED 01", "byte 1", "START Big", "BYTE 0x1", "END 0", "DIGITS \"1", "NOP"].map
      (fun l => assemble (codes l)) = List.replicate 9 none := by decide +kernel

/-! ## Witnesses: concrete cases that meet a statement's hypotheses -/

/-- Seven digits pending in an open run. -/
def seven (ins : List HostInput) : State := stateOf .run .big 7#3 [false, true, false, false, false, false, false] ins

theorem witness_ResetStepClearsTheEngineAndBeatsACommand :
    (seven [.reset none]).inputs = .reset none :: [] ∧ (seven [.reset (some 0x031#10)]).inputs = .reset (some 0x031#10) :: [] :=
  ⟨rfl, rfl⟩

/-- The invariant of an open run and a step from it. -/
theorem witness_EveryStepKeepsTheInvariant : ∃ t, (seven [.command 0x031#10 0]).Inv ∧ step (seven [.command 0x031#10 0]) = .next t :=
  ⟨_, ⟨by decide, by decide, (fun _ h => nomatch h), (fun _ h => nomatch h)⟩, rfl⟩

theorem witness_DecodeReadsBackEveryEncodedCommand : (Instr.start .big).wellFormed = true := rfl

theorem witness_StepExecutesTheDecodedCommand :
    (seven [.command 0x031#10 0]).inputs = .command 0x031#10 0 :: [] ∧ decode 0x031#10 = .command (.byte 0x31#8) := by decide

theorem witness_ReservedWordIsRefusedInEveryPhase :
    (seven [.command 0x102#10 0]).inputs = .command 0x102#10 0 :: [] ∧ wordLegal 0x102#10 = false := by decide

theorem witness_StateHoldsBetweenCommands :
    (seven []).inputs = [] ∧ (seven [.quiet]).inputs = .quiet :: [] ∧
      (seven [.command 0x031#10 1]).inputs = .command 0x031#10 (0 + 1) :: [] := by decide

theorem witness_PresentedCommandIsEventuallyAccepted : (seven [.command 0x031#10 5]).inputs = .command 0x031#10 5 :: [] := rfl

theorem witness_NonDigitByteChangesNothing : (seven []).phase = .run ∧ 0x00#8 ≠ 0x30#8 ∧ 0x00#8 ≠ 0x31#8 := by decide

/-- The three forms that feed a bit, in the order of the statements' hypothesis. -/
theorem witness_forms_that_feed_a_bit :
    ∀ f ∈ [(Instr.byte 0x30#8, false), (.byte 0x31#8, true), (.feed false, false), (.feed true, true)],
      f.1 = .byte 0x30#8 ∧ f.2 = false ∨ f.1 = .byte 0x31#8 ∧ f.2 = true ∨ f.1 = .feed f.2 := by decide

/-- The two ends of the counts below seven. -/
theorem witness_DigitBelowSevenIsAppended :
    (stateOf .run .big 6#3 [] []).phase = .run ∧ (stateOf .run .big 6#3 [] []).cnt ≠ 7#3 ∧
      (stateOf .run .little 0#3 [] []).phase = .run ∧ (stateOf .run .little 0#3 [] []).cnt ≠ 7#3 := by decide

theorem witness_EighthDigitFlushesOneByte : (seven []).phase = .run ∧ (seven []).cnt = 7#3 := by decide

theorem witness_ByteCarriedExactlyOnTheEighthDigit :
    ∃ t u, step (seven [.command 0x031#10 0]) = .next t ∧ t.outValid = true ∧
      step (seven [.command 0x061#10 0]) = .next u ∧ u.outValid = false := ⟨_, _, rfl, by decide, rfl, by decide⟩

theorem witness_StartOpensAFreshRun : State.reset.phase ≠ .run ∧ (stateOf .done .big 0#3 [] []).phase ≠ .run := by decide

theorem witness_StartInAnOpenRunIsRefused : (seven []).phase = .run := rfl

theorem witness_EndClosesTheRunAndDropsThePartialByte :
    (seven []).phase = .run ∧ (stateOf .run .little 0#3 [] []).phase = .run := ⟨rfl, rfl⟩

theorem witness_CommandsOutsideARunAreRefused :
    (∃ d, Instr.byte 0x31#8 = .byte d) ∧ (∃ v, Instr.feed true = .feed v) ∧ State.reset.phase ≠ .run :=
  ⟨⟨_, rfl⟩, ⟨_, rfl⟩, by decide⟩

theorem witness_StatusDecodesToTheFieldsItShows : decodeStatus 0x1F#8 = .ok (.run, .big, 7#3) := rfl

theorem witness_CommandFrame :
    ∃ t u v, exec (.byte 0x30#8) (seven []) = .next t ∧ exec .endRun (seven []) = .next u ∧
      exec (.start .big) State.reset = .next v := ⟨_, _, _, rfl, rfl, rfl⟩

theorem witness_RefusalMarkIsSetByRefusalsOnly :
    ∃ t, step (State.reset.withFetchWord 16 0x300) = .next t ∧ t.event = .refuse .notRunning := ⟨_, rfl, rfl⟩

/-- Both ways in which the endianness changes: START big from IDLE, and reset in a Big run. -/
theorem witness_EndiannessChangesOnlyBetweenRuns :
    ∃ t u, step (State.reset.withFetchWord 16 0x201) = .next t ∧ t.endian ≠ State.reset.endian ∧
      step (seven [.reset none]) = .next u ∧ u.endian ≠ (seven [.reset none]).endian := ⟨_, _, rfl, by decide, rfl, by decide⟩

theorem witness_OutIsAppendOnlyInARunAndFinalAfterIt :
    ∃ t u, step (seven [.command 0x031#10 0]) = .next t ∧ (seven [.command 0x031#10 0]).rst = false ∧
      step (stateOf .done .big 0#3 [] [.command 0x200#10 0]) = .next u ∧
      (stateOf .done .big 0#3 [] [.command 0x200#10 0]).rst = false := ⟨_, _, rfl, rfl, rfl, rfl⟩

/-- A change to each of the three phases. -/
theorem witness_PhaseChangesOnlyByResetStartAndEnd :
    ∃ t u v, step (seven [.reset none]) = .next t ∧ t.phase = .idle ∧ step (State.reset.withFetchWord 16 0x200) = .next u ∧
      u.phase = .run ∧ step (seven [.command 0x300#10 0]) = .next v ∧ v.phase = .done := ⟨_, _, _, rfl, rfl, rfl, rfl, rfl, rfl⟩

/-- Two states that differ in a slot above the count, and one step from the first. -/
theorem witness_StaleSlotsAreUnobservable :
    ∃ t, AgreeUpToStale (stateOf .run .big 1#3 [true, false] [.command 0x031#10 0])
        (stateOf .run .big 1#3 [true, true] [.command 0x031#10 0]) ∧
      stateOf .run .big 1#3 [true, false] [.command 0x031#10 0] ≠ stateOf .run .big 1#3 [true, true] [.command 0x031#10 0] ∧
      runSteps 1 (stateOf .run .big 1#3 [true, false] [.command 0x031#10 0]) = some ([], t) :=
  ⟨_, by unfold AgreeUpToStale; decide, by decide, rfl⟩

theorem witness_OpenRunHoldsTheFedBits :
    State.reset.phase ≠ .run ∧ ∀ i ∈ [Instr.byte 0x31#8, .feed false], (∃ d, i = .byte d) ∨ ∃ v, i = .feed v := by
  refine ⟨by decide, ?_⟩
  intro i hi
  simp only [List.mem_cons, List.not_mem_nil, or_false] at hi
  rcases hi with rfl | rfl
  · exact .inl ⟨_, rfl⟩
  · exact .inr ⟨_, rfl⟩

theorem witness_RunGivesItsClosedForm : State.reset.phase ≠ .run := by decide

/-- A host that pauses and an engine that lets a command wait. -/
theorem witness_StreamingEngineEqualsTheBatchRun :
    let s := stateOf .done .little 0#3 [] [.quiet, .command 0x201#10 2, .command 0x031#10 0, .quiet, .command 0x300#10 1]
    s.phase ≠ .run ∧ resetFree s.inputs = true ∧ presentedWords s.inputs = (runProgram [0x31#8] .big).map encode := by decide

/-- D-T3: `0a…0a0b1` with seven zeros, beside `00000001`. -/
theorem witness_NonDigitsAreTransparentAndRunsDeterministic :
    State.reset.phase ≠ .run ∧ (stateOf .done .big 0#3 [] []).phase ≠ .run ∧
      [0x30#8, 0x61#8, 0x31#8].filter (fun d => (classify d).isSome) =
        [0x30#8, 0x31#8, 0x62#8].filter (fun d => (classify d).isSome) := by decide

theorem witness_EveryByteSequenceIsTheResultOfARun : (stateOf .done .big 0#3 [] []).phase ≠ .run := by decide

/-- END in an open run without and with the refusal mark. -/
theorem witness_RunIsObservedAtItsEnd :
    ∃ t u, step (seven [.command 0x300#10 0]) = .next t ∧ observation (seven [.command 0x300#10 0]) t ≠ none ∧
      step { seven [.command 0x300#10 0] with refusalMark := true } = .next u ∧
      observation { seven [.command 0x300#10 0] with refusalMark := true } u = none := ⟨_, _, rfl, by decide, rfl, by decide⟩

theorem witness_WrittenLinesStandForTheirCommands : (256 : Nat) > 255 ∧ (2 : Nat) > 1 := by decide

theorem witness_AssemblerSpellsNoReservedWord : assembleWords (codes "END") = some [0x300#10] := by decide +kernel

end Sys2Proof.Tests
end

section
/-!
PROOFS. What every command and every step keeps (spec/00_scope.md R12): the frame of an executed command, the refusal mark, and the
engine invariant. Each fact is shown for the shared operations and carried through `exec_cases` and `step_cases`.
-/

namespace Sys2Proof.Machine

/-! ## Every step answers a next state -/

/-- Every command answers a next state, in every phase. -/
theorem exec_next (i : Instr) (s : State) : ∃ t, exec i s = .next t := ⟨_, exec_eq i s⟩

/-- Settles O5, by what the ports hold; an accepted command's step is `exec_next` or the refusal of a reserved word. -/
theorem everyStepHasANextState : Obligations.EveryStepHasANextState := by
  intro s
  rcases fetch_cases s with ⟨hi, -⟩ | ⟨rest, hi, -⟩ | ⟨w, n, rest, hi, -⟩ | ⟨p, rest, hi, -⟩ | ⟨w, rest, hi, -⟩
  · exact ⟨_, step_of_nil hi⟩
  · exact ⟨_, step_of_quiet hi⟩
  · exact ⟨_, step_of_waiting hi⟩
  · exact ⟨_, step_of_reset hi⟩
  · rw [step_of_command hi]
    cases decode w with
    | command i => exact exec_next i _
    | reserved _ => exact ⟨_, rfl⟩

/-! ## The refusal mark -/

/-- R12: a command sets the mark exactly when it is refused. -/
theorem exec_refusalMark {i : Instr} {s t : State} (h : exec i s = .next t) :
    t.refusalMark = true ↔ s.refusalMark = true ∨ ∃ r, t.event = .refuse r := by
  rcases exec_cases h with ⟨r, -, rfl, -⟩ | ⟨-, -, -, rfl⟩ | ⟨v, -, -, -, rfl⟩ | ⟨v, -, -, -, rfl⟩ | ⟨e, -, -, rfl⟩ |
    ⟨-, -, rfl⟩
  all_goals simp

/-- Settles O35: a hold and a reset keep the mark and refuse nothing, a reserved word is refused, and a command is
`exec_refusalMark`. -/
theorem refusalMarkIsSetByRefusalsOnly : Obligations.RefusalMarkIsSetByRefusalsOnly := by
  intro s t h
  rcases step_cases h with ⟨ins, rfl, -⟩ | ⟨p, rest, -, rfl⟩ | ⟨w, rest, -, -, rfl⟩ | ⟨w, rest, i, -, -, he⟩
  · simp
  · simp
  · simp
  · exact (exec_refusalMark he :)

/-! ## The frame of a command -/

/-- No command touches the inputs presented after it. -/
theorem exec_inputs {i : Instr} {s t : State} (h : exec i s = .next t) : t.inputs = s.inputs := by
  rcases exec_cases h with ⟨r, -, rfl, -⟩ | ⟨-, -, -, rfl⟩ | ⟨v, -, -, -, rfl⟩ | ⟨v, -, -, -, rfl⟩ | ⟨e, -, -, rfl⟩ |
    ⟨-, -, rfl⟩
  all_goals simp

/-- R25: only START writes the endianness. -/
theorem exec_endian {i : Instr} {s t : State} (h : exec i s = .next t) (hi : ∀ e, i ≠ .start e) : t.endian = s.endian := by
  rcases exec_cases h with ⟨r, -, rfl, -⟩ | ⟨-, -, -, rfl⟩ | ⟨v, -, -, -, rfl⟩ | ⟨v, -, -, -, rfl⟩ | ⟨e, -, rfl, -⟩ |
    ⟨-, -, rfl⟩
  case inr.inr.inr.inr.inl => exact absurd rfl (hi e)
  all_goals simp

/-- R27, R88, R89: a command that is neither START nor END keeps the phase, appends to `out` what it carries, and drops a pending
bit only when it carries a byte. -/
theorem exec_data_frame {i : Instr} {s t : State} (h : exec i s = .next t) (hs : ∀ e, i ≠ .start e) (he : i ≠ .endRun) :
    t.phase = s.phase ∧ t.out = s.out ++ t.carried.toList ∧ (t.carried = none → s.pending <+: t.pending) := by
  rcases exec_cases h with ⟨r, -, rfl, -⟩ | ⟨-, -, -, rfl⟩ | ⟨v, -, -, hc, rfl⟩ | ⟨v, -, -, -, rfl⟩ | ⟨e, -, rfl, -⟩ |
    ⟨-, rfl, -⟩
  · simp
  · simp
  · simp [State.appendBit_pending s v hc]
  · simp
  · exact absurd rfl (hs e)
  · exact absurd rfl he

/-- R111: END, accepted or refused, keeps `out` and carries nothing. -/
theorem exec_endRun_out {s t : State} (h : exec .endRun s = .next t) : t.out = s.out ∧ t.carried = none := by
  rw [exec_eq] at h
  injection h with h
  subst h
  by_cases hp : s.phase = .run <;> simp [hp]

/-- Settles O33, one frame lemma for each clause. -/
theorem commandFrame : Obligations.CommandFrame := by
  intro i s t h
  refine ⟨exec_inputs h, fun hm => (exec_refusalMark h).2 (.inl hm), exec_endian h, ?_, ?_⟩
  · rintro (⟨d, rfl⟩ | ⟨v, rfl⟩) <;> exact exec_data_frame h (by simp) (by simp)
  · rintro rfl
    exact exec_endRun_out h

/-! ## The engine invariant -/

/-- The invariant does not speak of what the host presents next. -/
theorem State.Inv.withInputs {s : State} (hs : s.Inv) (ins : List HostInput) : State.Inv { s with inputs := ins } :=
  ⟨hs.nothingPending, hs.idleAsReset, hs.carriedIsLast, hs.refusedIsMarked⟩

/-- Ending a step with an event that carries no byte, and whose refusal is marked, keeps the invariant. -/
theorem State.Inv.conclude {s : State} (hs : s.Inv) {e : Event} (hb : ∀ b, e ≠ .ok (some b))
    (hr : ∀ r, e = .refuse r → s.refusalMark = true) : (s.conclude e).Inv where
  nothingPending := hs.nothingPending
  idleAsReset := hs.idleAsReset
  carriedIsLast b h := absurd h (hb b)
  refusedIsMarked := hr

/-- R12: setting the mark keeps the invariant. -/
theorem State.Inv.mark {s : State} (hs : s.Inv) : State.Inv { s with refusalMark := true } :=
  ⟨hs.nothingPending, hs.idleAsReset, hs.carriedIsLast, fun _ _ => rfl⟩

theorem State.Inv.hold {s : State} (hs : s.Inv) : s.hold.Inv := hs.conclude (by simp) (by simp)

theorem State.Inv.accept {s : State} (hs : s.Inv) : s.accept.Inv := hs.conclude (by simp) (by simp)

theorem State.Inv.refuse {s : State} (hs : s.Inv) (r : RefuseReason) : (s.refuse r).Inv :=
  hs.mark.conclude (by simp) (fun _ _ => rfl)

/-- R112: in an open run the invariant leaves count, endianness and `out` free, so it only asks for the carried byte. -/
theorem inv_of_run {t : State} (hp : t.phase = .run)
    (hb : ∀ b, t.event = .ok (some b) → t.cnt = 0#3 ∧ t.out.getLast? = some b) (hr : ∀ r, t.event ≠ .refuse r) : t.Inv where
  nothingPending h := absurd hp h
  idleAsReset h := by simp [hp] at h
  carriedIsLast b h := ⟨hp, hb b h⟩
  refusedIsMarked r h := absurd h (hr r)

/-- R86: a bit appended in an open run carries nothing, so the invariant asks for nothing more. -/
theorem appendBit_accept_inv {s : State} (v : Bit) (hp : s.phase = .run) : (s.appendBit v).accept.Inv :=
  inv_of_run hp (by simp) (by simp)

/-- R43, R86: the flushed byte is the last of `out`, and the count is 0. -/
theorem flush_inv {s : State} (v : Bit) (hp : s.phase = .run) : (s.flush v).Inv :=
  inv_of_run hp (by simp) (by simp)

theorem openRun_inv (s : State) (e : Endian) : (s.openRun e).Inv := inv_of_run rfl (by simp) (by simp)

theorem closeRun_inv (s : State) : s.closeRun.Inv := ⟨by simp, by simp, by simp, by simp⟩

theorem resetEngine_inv (s : State) : s.resetEngine.Inv := ⟨by simp, by simp, by simp, by simp⟩

/-- Every command keeps the invariant, accepted or refused. -/
theorem exec_inv {i : Instr} {s t : State} (hs : s.Inv) (h : exec i s = .next t) : t.Inv := by
  rcases exec_cases h with ⟨r, -, rfl, -⟩ | ⟨-, -, -, rfl⟩ | ⟨v, hp, -, -, rfl⟩ | ⟨v, hp, -, -, rfl⟩ | ⟨e, -, -, rfl⟩ |
    ⟨-, -, rfl⟩
  · exact hs.refuse r
  · exact hs.accept
  · exact appendBit_accept_inv v hp
  · exact flush_inv v hp
  · exact openRun_inv s e
  · exact closeRun_inv s

/-- Settles O4, by what a step can do; the command's case is `exec_inv`. -/
theorem everyStepKeepsTheInvariant : Obligations.EveryStepKeepsTheInvariant := by
  intro s t hs h
  rcases step_cases h with ⟨ins, rfl, -⟩ | ⟨p, rest, -, rfl⟩ | ⟨w, rest, -, -, rfl⟩ | ⟨w, rest, i, -, -, he⟩
  · exact (hs.withInputs ins).hold
  · exact resetEngine_inv _
  · exact (hs.withInputs rest).refuse .reserved
  · exact exec_inv (hs.withInputs rest) he

end Sys2Proof.Machine
end

section
/-!
PROOFS. Packing a sequence of bits octet by octet (spec/40_classify_feed.md R83, R85, R87): the recursion of `packAll`, its closed
form, and the octet that packs to a given byte.
-/

namespace Sys2Proof.Machine

/-! ## `packAll` octet by octet -/

/-- R83: output bit `k` is the bit in the slot the endianness gives it. -/
theorem pack_getLsbD (b : Vector Bit 8) (e : Endian) (k : Fin 8) : (pack b e).getLsbD k = b[slotOf e k] := by
  fin_cases k <;> grind [pack]

/-- The octet that packs to the byte `r` (R85: packing is a bijection). -/
def unpack (e : Endian) (r : Byte) : Vector Bit 8 := Vector.ofFn fun p : Fin 8 => r.getLsbD (slotOf e p)

/-- R83: the two slot orders are each their own inverse. -/
@[simp] theorem slotOf_slotOf (e : Endian) (k : Fin 8) : slotOf e (slotOf e k) = k := by
  cases e <;> simp [slotOf]

@[simp] theorem pack_unpack (e : Endian) (r : Byte) : pack (unpack e r) e = r := by
  apply BitVec.eq_of_getLsbD_eq
  intro k hk
  have h := pack_getLsbD (unpack e r) e ⟨k, hk⟩
  simpa [unpack, BitVec.getLsbD_eq_getElem hk] using h

/-- R87: an octet at the head of the fed bits gives the first byte. -/
@[simp] theorem packAll_octet_append (e : Endian) (b : Vector Bit 8) (f : List Bit) :
    packAll e (b.toList ++ f) = pack b e :: packAll e f := by
  rw [octet_eq b]
  rfl

/-- R87: fewer than eight bits give no byte. -/
theorem packAll_of_short (e : Endian) {f : List Bit} (h : f.length < 8) : packAll e f = [] := by
  unfold packAll
  split
  · simp at h
    omega
  · rfl

/-- A sequence of bits is cut into octets from its head, until fewer than eight bits are left. -/
theorem octet_induction {P : List Bit → Prop} (short : ∀ f, f.length < 8 → P f)
    (octet : ∀ (b : Vector Bit 8) (f : List Bit), P f → P (b.toList ++ f)) (f : List Bit) : P f := by
  by_cases h : f.length < 8
  · exact short f h
  · have hb : (f.take 8).toArray.size = 8 := by simp; omega
    have hf : (Vector.mk (f.take 8).toArray hb).toList ++ f.drop 8 = f := by simp
    rw [← hf]
    exact octet _ _ (octet_induction short octet (f.drop 8))
termination_by f.length
decreasing_by simp; omega

/-- Bits that follow whole octets are packed on their own. -/
theorem packAll_append (e : Endian) (f g : List Bit) (h : 8 ∣ f.length) : packAll e (f ++ g) = packAll e f ++ packAll e g := by
  induction f using octet_induction with
  | short f hs =>
    have : f = [] := List.length_eq_zero_iff.1 (by omega)
    simp [this, packAll_of_short]
  | octet b f ih =>
    have : 8 ∣ f.length := by simpa using h
    simp [List.append_assoc, ih this]

/-- R90: one byte for every eight bits. -/
@[simp] theorem packAll_length (e : Endian) (f : List Bit) : (packAll e f).length = f.length / 8 := by
  induction f using octet_induction with
  | short f hs => simp [packAll_of_short e hs, Nat.div_eq_of_lt hs]
  | octet b f ih =>
    simp [ih]

/-- R115: the `j`-th byte packs the bits `8j` to `8j + 7`. -/
theorem packAll_getElem? (e : Endian) (f : List Bit) (j : Nat) (h : j < f.length / 8) :
    (packAll e f)[j]? = some (pack (Vector.ofFn fun k : Fin 8 => f.getD (8 * j + k) false) e) := by
  induction f using octet_induction generalizing j with
  | short f hs => simp [Nat.div_eq_of_lt hs] at h
  | octet b f ih =>
    cases j with
    | zero =>
      have : (Vector.ofFn fun k : Fin 8 => (b.toList ++ f).getD (8 * 0 + k) false) = b := by
        ext i hi
        simp [List.getElem?_append_left]
      rw [this]
      simp
    | succ j =>
      have hd (k : Nat) : (b.toList ++ f).getD (8 * (j + 1) + k) false = f.getD (8 * j + k) false := by
        rw [List.getD_append_right _ _ _ _ (by simp; omega)]
        congr 1
        simp
        omega
      have hj : j < f.length / 8 := by
        simp at h
        omega
      simp only [hd, packAll_octet_append, List.getElem?_cons_succ]
      exact ih j hj

/-- R85: every byte sequence is packed from the octets of its bytes. -/
theorem packAll_flatMap_unpack (e : Endian) (bytes : List Byte) : packAll e (bytes.flatMap fun r => (unpack e r).toList) = bytes := by
  induction bytes with
  | nil => rfl
  | cons r bytes ih => simp [ih]

end Sys2Proof.Machine
end

section
/-!
PROOFS. The fed bits of an open run (spec/10_state.md R23, R27, R28; spec/40_classify_feed.md R86 to R90): `out` packs the whole
octets, the BitBuffer holds the rest. Every data command keeps this, so every list of data commands does.
-/

namespace Sys2Proof.Machine

/-! ## Executing several commands -/

theorem execAll_cons {i : Instr} {s t : State} (is : List Instr) (h : exec i s = .next t) : execAll (i :: is) s = execAll is t := by
  simp [execAll, h]

theorem execAll_append {is : List Instr} {s t : State} (js : List Instr) (h : execAll is s = .next t) :
    execAll (is ++ js) s = execAll js t := by
  induction is generalizing s with
  | nil =>
    injection h with h
    simp [h]
  | cons i is ih =>
    obtain ⟨u, hu⟩ := exec_next i s
    rw [execAll_cons _ hu] at h
    rw [List.cons_append, execAll_cons _ hu]
    exact ih h

/-! ## The bits of an open run -/

/-- R86: a full buffer and the eighth bit are the octet that is flushed. -/
theorem packAll_pending_append (s : State) (v : Bit) (h : s.cnt = 7#3) : packAll s.endian (s.pending ++ [v]) = [s.flushByte v] := by
  rw [State.flushByte_eq, State.pending, octet_eq s.buf, h]
  rfl

/-- R23, R87: an open run of endianness `e` in which the bits `f` were fed: whole octets are packed in `out`, and the bits after them
are pending. -/
structure OpenRunOf (e : Endian) (f : List Bit) (s : State) : Prop where
  phase : s.phase = .run
  endian : s.endian = e
  octets : ∃ g, 8 ∣ g.length ∧ s.out = packAll e g ∧ f = g ++ s.pending

theorem openRun_openRunOf (s : State) (e : Endian) : OpenRunOf e [] (s.openRun e) :=
  ⟨rfl, rfl, [], by simp, rfl, by simp⟩

theorem OpenRunOf.accept {e : Endian} {f : List Bit} {s : State} (hs : OpenRunOf e f s) : OpenRunOf e f s.accept :=
  ⟨hs.phase, hs.endian, hs.octets⟩

/-- R86: a fed bit is the last of the fed bits. -/
theorem OpenRunOf.feedBit {e : Endian} {f : List Bit} {s : State} (hs : OpenRunOf e f s) (v : Bit) :
    OpenRunOf e (f ++ [v]) (s.feedBit v) := by
  obtain ⟨hp, rfl, g, hg, ho, rfl⟩ := hs
  refine ⟨by simpa using hp, by simp, ?_⟩
  by_cases hc : s.cnt = 7#3
  · refine ⟨g ++ (s.pending ++ [v]), ?_, ?_, ?_⟩
    · simpa [hc] using hg
    · rw [packAll_append _ _ _ hg, packAll_pending_append s v hc, ← ho, feedBit_of_full v hc, State.flush_out]
    · simp [feedBit_of_full v hc]
  · refine ⟨g, hg, ?_, ?_⟩
    · simpa [feedBit_of_room v hc] using ho
    · simp [feedBit_of_room v hc, State.appendBit_pending s v hc]

/-- BYTE and FEED, the commands that a run is fed with. -/
def IsDataCommand (i : Instr) : Prop := (∃ d, i = .byte d) ∨ ∃ v, i = .feed v

/-- R88, R89: in an open run a data command feeds its bit, if it has one. -/
theorem exec_data_of_run {i : Instr} (hi : IsDataCommand i) {s : State} (hp : s.phase = .run) :
    exec i s = .next ((fedBit i).elim s.accept s.feedBit) := by
  rw [exec_eq]
  rcases hi with ⟨d, rfl⟩ | ⟨v, rfl⟩ <;> simp [hp, fedBit]

/-- A data command adds the bit it feeds to those of the open run, and leaves the mark. -/
theorem OpenRunOf.exec_data {e : Endian} {f : List Bit} {s : State} (hs : OpenRunOf e f s) {i : Instr} (hi : IsDataCommand i) :
    ∃ t, exec i s = .next t ∧ OpenRunOf e (f ++ (fedBit i).toList) t ∧ t.refusalMark = s.refusalMark := by
  refine ⟨_, exec_data_of_run hi hs.phase, ?_⟩
  cases fedBit i with
  | none => exact ⟨by simpa using hs.accept, rfl⟩
  | some v => exact ⟨hs.feedBit v, by simp⟩

/-- A list of data commands adds the bits it feeds, in order. -/
theorem OpenRunOf.execAll_data {e : Endian} {f : List Bit} {s : State} (hs : OpenRunOf e f s) {is : List Instr}
    (his : ∀ i ∈ is, IsDataCommand i) :
    ∃ t, execAll is s = .next t ∧ OpenRunOf e (f ++ is.filterMap fedBit) t ∧ t.refusalMark = s.refusalMark := by
  induction is generalizing s f with
  | nil => exact ⟨s, rfl, by simpa using hs, rfl⟩
  | cons i is ih =>
    obtain ⟨hi, his⟩ := List.forall_mem_cons.1 his
    obtain ⟨u, hu, hsu, hmu⟩ := hs.exec_data hi
    obtain ⟨t, ht, hst, hmt⟩ := ih hsu his
    refine ⟨t, (execAll_cons _ hu).trans ht, ?_, hmt.trans hmu⟩
    cases hf : fedBit i <;> simpa [hf, List.append_assoc] using hst

/-- R110: START opens a run in which no bit is fed yet. -/
theorem exec_start_outside {s : State} (e : Endian) (hp : s.phase ≠ .run) : exec (.start e) s = .next (s.openRun e) := by
  simp [exec_eq, hp]

/-- After START and data commands, the run holds the bits fed. -/
theorem execAll_start_data {s : State} (e : Endian) {is : List Instr} (hp : s.phase ≠ .run) (his : ∀ i ∈ is, IsDataCommand i) :
    ∃ t, execAll (.start e :: is) s = .next t ∧ OpenRunOf e (is.filterMap fedBit) t ∧ t.refusalMark = s.refusalMark := by
  obtain ⟨t, ht, hst, hm⟩ := (openRun_openRunOf s e).execAll_data his
  exact ⟨t, (execAll_cons _ (exec_start_outside e hp)).trans ht, hst, hm⟩

/-! ## The closed form of an open run -/

namespace OpenRunOf

variable {e : Endian} {f : List Bit} {s : State}

/-- R90: `out` packs every eight bits fed. -/
theorem out (hs : OpenRunOf e f s) : s.out = packAll e f := by
  obtain ⟨-, -, g, hg, ho, rfl⟩ := hs
  have hshort : s.pending.length < 8 := by simpa using s.cnt.isLt
  rw [packAll_append _ _ _ hg, packAll_of_short e hshort, List.append_nil, ho]

/-- R90: the count is the number of fed bits modulo 8. -/
theorem cnt (hs : OpenRunOf e f s) : s.cnt.toNat = f.length % 8 := by
  obtain ⟨-, -, g, hg, -, rfl⟩ := hs
  have := s.cnt.isLt
  simp
  omega

/-- R23: the pending bits are those after the last whole octet. -/
theorem pending (hs : OpenRunOf e f s) : s.pending = f.drop (8 * (f.length / 8)) := by
  obtain ⟨-, -, g, hg, -, rfl⟩ := hs
  have hlen : 8 * ((g ++ s.pending).length / 8) = g.length := by
    have := s.cnt.isLt
    simp
    omega
  rw [hlen, List.drop_left]

end OpenRunOf

/-- Settles O40: an open run holds the fed bits (`execAll_start_data`), and each clause is a fact about such a run. -/
theorem openRunHoldsTheFedBits : Obligations.OpenRunHoldsTheFedBits := by
  intro s e is hp his f
  obtain ⟨t, ht, hst, hm⟩ := execAll_start_data e hp his
  refine ⟨t, ht, hst.phase, hst.endian, hst.cnt, hst.pending, ?_, ?_, hm⟩
  · rw [hst.out, packAll_length]
  · intro j hj
    rw [hst.out]
    exact packAll_getElem? e f j hj

/-! ## A run with a given result -/

/-- R114: the run of an input opens, takes the input's digits, and closes. -/
theorem execAll_runProgram {s : State} (x : List Byte) (e : Endian) (hp : s.phase ≠ .run) :
    ∃ t, execAll (runProgram x e) s = .next t.closeRun ∧ OpenRunOf e (digitBits x) t ∧ t.refusalMark = s.refusalMark := by
  obtain ⟨t, ht, hst, hm⟩ := execAll_start_data e (is := x.map .byte) hp (by simp [IsDataCommand])
  have hend : exec .endRun t = .next t.closeRun := by simp [exec_eq, hst.phase]
  refine ⟨t, ?_, ?_, hm⟩
  · exact (execAll_append [.endRun] ht).trans (execAll_cons [] hend)
  · simpa [List.filterMap_map, Function.comp_def, fedBit, digitBits] using hst

/-- R80: the digit of a bit reads as that bit. -/
@[simp] theorem classify_digitByte (v : Bit) : classify (digitByte v) = some v := by
  revert v
  decide

/-- R80: any bits are the digits of an input. -/
@[simp] theorem digitBits_map_digitByte (f : List Bit) : digitBits (f.map digitByte) = f := by
  simp [digitBits, List.filterMap_map]

/-- Settles O44: the input writes, as digits, the octets that pack to the given bytes. -/
theorem everyByteSequenceIsTheResultOfARun : Obligations.EveryByteSequenceIsTheResultOfARun := by
  intro e bytes
  refine ⟨(bytes.flatMap fun r => (unpack e r).toList).map digitByte, fun s hp => ?_⟩
  obtain ⟨t, ht, hst, -⟩ := execAll_runProgram _ e hp
  refine ⟨t.closeRun, ht, ?_⟩
  rw [State.closeRun_out, hst.out, digitBits_map_digitByte, packAll_flatMap_unpack]

end Sys2Proof.Machine
end

section
/-!
PROOFS. What the state never shows (spec/10_state.md R24, R34): the slots at index `cnt` and above and the free values yet to come.
Every shared operation takes two states that agree up to them to two states that do, so every command and every step does.
-/

namespace Sys2Proof.Machine

namespace AgreeUpToStale

variable {s t : State}

/-! ### What the two states share -/

theorem cnt (h : AgreeUpToStale s t) : s.cnt = t.cnt := by
  obtain ⟨-, hc, -⟩ := h
  exact hc

theorem phase (h : AgreeUpToStale s t) : s.phase = t.phase := by
  obtain ⟨-, -, -, hp, -⟩ := h
  exact hp

theorem inputs (h : AgreeUpToStale s t) : s.inputs = t.inputs := by
  obtain ⟨-, -, -, -, -, -, -, hi⟩ := h
  exact hi

/-- R43: the two states carry the same byte, if any. -/
theorem carried (h : AgreeUpToStale s t) : s.carried = t.carried := by
  obtain ⟨-, -, -, -, -, -, he, -⟩ := h
  simp [State.carried, he]

/-- R32: STATUS shows no slot. -/
theorem status (h : AgreeUpToStale s t) : s.status = t.status := by
  obtain ⟨-, hc, he, hp, -⟩ := h
  simp [State.status, hc, he, hp]

/-! ### Every operation keeps the agreement -/

/-- The host's inputs are no part of the BitBuffer. -/
theorem withInputs (h : AgreeUpToStale s t) (ins : List HostInput) :
    AgreeUpToStale { s with inputs := ins } { t with inputs := ins } := by
  obtain ⟨hb, hc, he, hp, ho, hm, hev, -⟩ := h
  exact ⟨hb, hc, he, hp, ho, hm, hev, rfl⟩

theorem conclude (h : AgreeUpToStale s t) (e : Event) : AgreeUpToStale (s.conclude e) (t.conclude e) := by
  obtain ⟨hb, hc, he, hp, ho, hm, -, hi⟩ := h
  exact ⟨hb, hc, he, hp, ho, hm, rfl, hi⟩

theorem hold (h : AgreeUpToStale s t) : AgreeUpToStale s.hold t.hold := h.conclude _

theorem accept (h : AgreeUpToStale s t) : AgreeUpToStale s.accept t.accept := h.conclude _

theorem refuse (h : AgreeUpToStale s t) (r : RefuseReason) : AgreeUpToStale (s.refuse r) (t.refuse r) := by
  obtain ⟨hb, hc, he, hp, ho, -, -, hi⟩ := h
  exact ⟨hb, hc, he, hp, ho, rfl, rfl, hi⟩

/-- R110: START resets the count, so no slot is read before it is written. -/
theorem openRun (h : AgreeUpToStale s t) (e : Endian) : AgreeUpToStale (s.openRun e) (t.openRun e) := by
  obtain ⟨-, -, -, -, -, hm, -, hi⟩ := h
  exact ⟨by simp, rfl, rfl, rfl, rfl, hm, rfl, hi⟩

theorem closeRun (h : AgreeUpToStale s t) : AgreeUpToStale s.closeRun t.closeRun := by
  obtain ⟨-, -, he, -, ho, hm, -, hi⟩ := h
  exact ⟨by simp, rfl, he, rfl, ho, hm, rfl, hi⟩

theorem resetEngine (h : AgreeUpToStale s t) : AgreeUpToStale s.resetEngine t.resetEngine := by
  obtain ⟨-, -, -, -, -, hm, -, hi⟩ := h
  exact ⟨by simp, rfl, rfl, rfl, rfl, hm, rfl, hi⟩

/-- R86: an appended bit overwrites the slot at the count, whatever it held. -/
theorem appendBit (h : AgreeUpToStale s t) (v : Bit) (hc7 : s.cnt ≠ 7#3) : AgreeUpToStale (s.appendBit v) (t.appendBit v) := by
  obtain ⟨hb, hc, he, hp, ho, hm, hev, hi⟩ := h
  have hpending : (s.appendBit v).pending = (t.appendBit v).pending := by
    rw [State.appendBit_pending s v hc7, State.appendBit_pending t v (hc ▸ hc7), hb]
  exact ⟨hpending, by simp [hc], he, hp, ho, hm, hev, hi⟩

/-- R86: a flush reads the seven pending bits and the eighth bit, and not slot 7. -/
theorem flushByte (h : AgreeUpToStale s t) (v : Bit) (hc7 : s.cnt = 7#3) : s.flushByte v = t.flushByte v := by
  obtain ⟨hb, hc, he, -⟩ := h
  have hpack : packAll s.endian (s.pending ++ [v]) = packAll t.endian (t.pending ++ [v]) := by rw [hb, he]
  rw [packAll_pending_append s v hc7, packAll_pending_append t v (hc ▸ hc7)] at hpack
  exact List.singleton_inj.1 hpack

theorem flush (h : AgreeUpToStale s t) (v : Bit) (hc7 : s.cnt = 7#3) : AgreeUpToStale (s.flush v) (t.flush v) := by
  have hbyte := h.flushByte v hc7
  obtain ⟨-, -, he, hp, ho, hm, -, hi⟩ := h
  exact ⟨by simp, rfl, he, hp, by simp [ho, hbyte], hm, by simp [hbyte], hi⟩

theorem feedBit (h : AgreeUpToStale s t) (v : Bit) : AgreeUpToStale (s.feedBit v) (t.feedBit v) := by
  by_cases hc7 : s.cnt = 7#3
  · rw [feedBit_of_full v hc7, feedBit_of_full v (h.cnt ▸ hc7)]
    exact h.flush v hc7
  · rw [feedBit_of_room v hc7, feedBit_of_room v (h.cnt ▸ hc7)]
    exact (h.appendBit v hc7).accept

/-- A command takes agreeing states to agreeing states: they are in the same phase, so it does the same to both. -/
theorem exec_agree (h : AgreeUpToStale s t) (i : Instr) {s' : State} (hs : exec i s = .next s') :
    ∃ t', exec i t = .next t' ∧ AgreeUpToStale s' t' := by
  rw [exec_eq] at hs
  injection hs with hs
  subst hs
  refine ⟨_, exec_eq i t, ?_⟩
  rw [← h.phase]
  by_cases hp : s.phase = .run
  · cases i with
    | byte d =>
      cases hd : classify d with
      | none => simpa [hp, hd] using h.accept
      | some v => simpa [hp, hd] using h.feedBit v
    | feed v => simpa [hp] using h.feedBit v
    | start e => simpa [hp] using h.refuse .runOpen
    | endRun => simpa [hp] using h.closeRun
  · cases i with
    | byte d => simpa [hp] using h.refuse .notRunning
    | feed v => simpa [hp] using h.refuse .notRunning
    | start e => simpa [hp] using h.openRun e
    | endRun => simpa [hp] using h.refuse .notRunning

/-- R24: a step takes agreeing states to agreeing states. -/
theorem step_agree (h : AgreeUpToStale s t) {s' : State} (hs : step s = .next s') :
    ∃ t', step t = .next t' ∧ AgreeUpToStale s' t' := by
  rcases fetch_cases s with ⟨hi, -⟩ | ⟨rest, hi, -⟩ | ⟨w, n, rest, hi, -⟩ | ⟨p, rest, hi, -⟩ | ⟨w, rest, hi, -⟩
  · rw [step_of_nil hi] at hs
    injection hs with hs
    exact ⟨_, step_of_nil (h.inputs ▸ hi), hs ▸ h.hold⟩
  · rw [step_of_quiet hi] at hs
    injection hs with hs
    exact ⟨_, step_of_quiet (h.inputs ▸ hi), hs ▸ (h.withInputs _).hold⟩
  · rw [step_of_waiting hi] at hs
    injection hs with hs
    exact ⟨_, step_of_waiting (h.inputs ▸ hi), hs ▸ (h.withInputs _).hold⟩
  · rw [step_of_reset hi] at hs
    injection hs with hs
    exact ⟨_, step_of_reset (h.inputs ▸ hi), hs ▸ (h.withInputs _).resetEngine⟩
  · rw [step_of_command hi] at hs
    rw [step_of_command (h.inputs ▸ hi)]
    cases hd : decode w with
    | command i => exact (h.withInputs rest).exec_agree i (by simpa [hd] using hs)
    | reserved w' =>
      refine ⟨_, rfl, ?_⟩
      simp only [hd, Host.Outcome.next.injEq] at hs
      exact hs ▸ (h.withInputs rest).refuse .reserved

end AgreeUpToStale

/-- A run of `k + 1` steps is one step and a run of `k`. -/
theorem runSteps_succ {s u : State} (k : Nat) (h : step s = .next u) :
    runSteps (k + 1) s = (runSteps k u).map fun r => (u.carried.toList ++ r.1, r.2) := by
  simp [runSteps, h]

/-- Settles O39, by induction on the number of steps; one step is `AgreeUpToStale.step_agree`. -/
theorem staleSlotsAreUnobservable : Obligations.StaleSlotsAreUnobservable := by
  intro k
  induction k with
  | zero =>
    intro s s' t bs h hr
    simp only [runSteps, Option.some.injEq, Prod.mk.injEq] at hr
    obtain ⟨rfl, rfl⟩ := hr
    exact ⟨s', rfl, h, h.status.symm⟩
  | succ k ih =>
    intro s s' t bs h hr
    obtain ⟨u, hu⟩ := everyStepHasANextState s
    obtain ⟨u', hu', hag⟩ := h.step_agree hu
    rw [runSteps_succ k hu, Option.map_eq_some_iff] at hr
    obtain ⟨⟨cs, t⟩, hr, rfl, rfl⟩ := hr
    obtain ⟨t', hr', hag', hst⟩ := ih u u' t cs hag hr
    exact ⟨t', by simp [runSteps_succ k hu', hr', hag.carried], hag', hst⟩

end Sys2Proof.Machine
end

section
/-!
PROOFS. STATUS and reset (spec/10_state.md R32, R33, R35): the fields of a status word, reading them back, and the state after reset.
-/

namespace Sys2Proof.Machine

/-! ## The fields of a status word -/

section
variable (p : Phase) (e : Endian) (c : BitVec 3)

/-- R32: bits 2:0. -/
@[simp] theorem statusWord_cnt : (statusWord p e c).extractLsb' 0 3 = c := by
  apply BitVec.eq_of_getLsbD_eq
  intro i hi
  grind [statusWord]

/-- R32: bit 3. -/
theorem statusWord_endian : (statusWord p e c).getLsbD 3 = (e == .big) := by
  cases e <;> grind [statusWord, Endian.code]

/-- R32: bits 5:4. -/
@[simp] theorem statusWord_phase : (statusWord p e c).extractLsb' 4 2 = p.code := by
  apply BitVec.eq_of_getLsbD_eq
  intro i hi
  grind [statusWord]

/-- R32: bits 7:6. -/
@[simp] theorem statusWord_high : (statusWord p e c).extractLsb' 6 2 = 0b00#2 := by
  apply BitVec.eq_of_getLsbD_eq
  intro i hi
  grind [statusWord]

/-- U5: reading a status word back gives its fields. -/
theorem decodeStatus_statusWord : decodeStatus (statusWord p e c) = .ok (p, e, c) := by
  unfold decodeStatus
  rw [statusWord_high, statusWord_phase, statusWord_cnt, statusWord_endian]
  cases p <;> cases e <;> rfl

end

/-- R26: the code 0b11 stands for no phase. -/
theorem Phase.code_ne_three (p : Phase) : p.code ≠ 0b11#2 := by
  cases p <;> decide

/-- R25: the code of the endianness a bit stands for is that bit. -/
theorem endian_code_of_bit (b : Bit) : (if b then Endian.big else Endian.little).code = BitVec.ofBool b := by
  cases b <;> rfl

/-- R32: a byte is its four status fields. -/
theorem byte_eq_status_fields (x : Byte) :
    x = x.extractLsb' 6 2 ++ x.extractLsb' 4 2 ++ BitVec.ofBool (x.getLsbD 3) ++ x.extractLsb' 0 3 := by
  apply BitVec.eq_of_getLsbD_eq
  intro i hi
  grind

/-- U5: a byte that reads back to fields is their status word. -/
theorem statusWord_of_decodeStatus {x : Byte} {p : Phase} {e : Endian} {c : BitVec 3} (h : decodeStatus x = .ok (p, e, c)) :
    x = statusWord p e c := by
  have hx := byte_eq_status_fields x
  have he := endian_code_of_bit (x.getLsbD 3)
  unfold decodeStatus at h
  generalize (if x.getLsbD 3 then Endian.big else Endian.little) = e' at h he
  split_ifs at h with h6 h0 h1 h2
  all_goals
    simp only [Except.ok.injEq, Prod.mk.injEq] at h
    obtain ⟨rfl, rfl, rfl⟩ := h
    rw [not_not.1 h6, ← he] at hx
  · rwa [h0] at hx
  · rwa [h1] at hx
  · rwa [h2] at hx

/-- Settles O32, by `decodeStatus_statusWord` and its converse. -/
theorem statusDecodesToTheFieldsItShows : Obligations.StatusDecodesToTheFieldsItShows :=
  ⟨fun s => decodeStatus_statusWord s.phase s.endian s.cnt, fun _ _ _ _ => statusWord_of_decodeStatus⟩

/-- Settles O31, one field lemma for each clause. -/
theorem statusWordLayout : Obligations.StatusWordLayout := by
  intro s
  have hphase : s.status.extractLsb' 4 2 = s.phase.code := statusWord_phase ..
  refine ⟨statusWord_cnt .., statusWord_endian .., ?_, hphase ▸ s.phase.code_ne_three, statusWord_high ..⟩
  rw [hphase]
  cases s.phase <;> rfl

/-! ## Reset -/

/-- Settles O1: the fields of the state after reset are written out in its definition. -/
theorem resetLeavesTheSpecifiedValues : Obligations.ResetLeavesTheSpecifiedValues :=
  ⟨rfl, rfl, rfl, rfl, rfl, rfl⟩

/-- Settles O3: nothing is pending, carried or refused after reset. -/
theorem resetStateSatisfiesTheInvariant : Obligations.ResetStateSatisfiesTheInvariant where
  nothingPending _ := rfl
  idleAsReset _ := ⟨rfl, rfl⟩
  carriedIsLast _ h := nomatch h
  refusedIsMarked _ h := nomatch h

end Sys2Proof.Machine
end

section
/-!
PROOFS. What a step does to the run (spec/10_state.md R25 to R27; spec/41_run_control.md R110 to R112): it resets, opens or closes a
run, or keeps phase and endianness and appends to `out` what it carries. Each statement about the run's control reads it off.
-/

namespace Sys2Proof.Machine

/-! ## The word of a decoded command -/

/-- R60: a word is its opcode and its data. -/
theorem opField_append_dataField (w : Cmd) : opField w ++ dataField w = w := by
  apply BitVec.eq_of_getLsbD_eq
  intro i hi
  grind [opField, dataField]

/-- R63, R64: data whose reserved bits are 0 is its operand bit. -/
theorem data_eq_operandBit {d : Byte} (h : d.extractLsb' 1 7 = 0#7) : 0#7 ++ BitVec.ofBool (d.getLsbD 0) = d := by
  rw [← h]
  apply BitVec.eq_of_getLsbD_eq
  intro i hi
  grind

/-- R25, R64: the endianness a bit selects is encoded by that bit. -/
@[simp] theorem bitOfEndian_endianOfBit (b : Bit) : bitOfEndian (endianOfBit b) = b := by
  cases b <;> rfl

/-- R69: a word that decodes to a command is that command's word. -/
theorem encode_of_decode {w : Cmd} {i : Instr} (h : decode w = .command i) : encode i = w := by
  have hw := opField_append_dataField w
  unfold decode at h
  split_ifs at h with h0 h1 h2 h3
  · injection h with h
    rw [← h, encode, ← h0, hw]
  · injection h with h
    rw [← h, encode, data_eq_operandBit h1.2, ← h1.1, hw]
  · injection h with h
    rw [← h, encode, bitOfEndian_endianOfBit, data_eq_operandBit h2.2, ← h2.1, hw]
  · injection h with h
    rw [← h, encode, ← h3.1, ← h3.2, hw]

/-! ## The effect of a step on the run -/

/-- What a step from `s` to `t` can do to the run. -/
inductive RunEffect (s t : State) : Prop where
  /-- R150: reset. -/
  | reset (rst : s.rst = true) (phase : t.phase = .idle)
  /-- R27, R112: the run is neither opened nor closed, and a byte is carried in an open run only. -/
  | keeps (phase : t.phase = s.phase) (endian : t.endian = s.endian) (out : t.out = s.out ++ t.carried.toList)
      (carried : s.phase ≠ .run → t.carried = none)
  /-- R110: START accepted outside a run. -/
  | opens (before : s.phase ≠ .run) (rest : List HostInput) (inputs : s.inputs = .command (encode (.start t.endian)) 0 :: rest)
      (phase : t.phase = .run) (out : t.out = []) (carried : t.carried = none)
  /-- R111: END accepted in a run. -/
  | closes (before : s.phase = .run) (rest : List HostInput) (inputs : s.inputs = .command (encode .endRun) 0 :: rest)
      (phase : t.phase = .done) (endian : t.endian = s.endian) (out : t.out = s.out) (carried : t.carried = none)

/-- A command presented alone has its effect on the run. -/
theorem runEffect_of_exec {s t : State} {i : Instr} {rest : List HostInput} (hi : s.inputs = .command (encode i) 0 :: rest)
    (h : exec i { s with inputs := rest } = .next t) : RunEffect s t := by
  rcases exec_cases h with ⟨r, -, rfl, -⟩ | ⟨-, -, -, rfl⟩ | ⟨v, -, -, -, rfl⟩ | ⟨v, hp, -, -, rfl⟩ | ⟨e, hp, rfl, rfl⟩ |
    ⟨hp, rfl, rfl⟩
  · exact .keeps rfl rfl (by simp) (fun _ => rfl)
  · exact .keeps rfl rfl (by simp) (fun _ => rfl)
  · exact .keeps rfl rfl (by simp) (fun _ => rfl)
  · exact .keeps rfl rfl (by simp) (fun hn => absurd hp hn)
  · exact .opens hp rest hi rfl rfl rfl
  · exact .closes hp rest hi rfl rfl rfl rfl

/-- Every step has one of the four effects; an accepted command's is `runEffect_of_exec`. -/
theorem runEffect_of_step {s t : State} (h : step s = .next t) : RunEffect s t := by
  rcases step_cases h with ⟨ins, rfl, -⟩ | ⟨p, rest, hi, rfl⟩ | ⟨w, rest, -, -, rfl⟩ | ⟨w, rest, i, hi, hd, he⟩
  · exact .keeps rfl rfl (by simp) (fun _ => rfl)
  · exact .reset (by simp [State.rst, hi]) rfl
  · exact .keeps rfl rfl (by simp) (fun _ => rfl)
  · exact runEffect_of_exec (encode_of_decode hd ▸ hi) he

/-- Settles O36: reset and an opened run are the two effects that do not keep the endianness. -/
theorem endiannessChangesOnlyBetweenRuns : Obligations.EndiannessChangesOnlyBetweenRuns := by
  intro s t h hne
  cases runEffect_of_step h with
  | reset rst => exact .inl rst
  | keeps _ endian => exact absurd endian hne
  | opens before rest inputs phase => exact .inr ⟨before, phase, rest, inputs⟩
  | closes _ _ _ _ endian => exact absurd endian hne

/-- Settles O37: without reset, a run is kept, closed with `out` as it is, or opened outside a run with `out` empty. -/
theorem outIsAppendOnlyInARunAndFinalAfterIt : Obligations.OutIsAppendOnlyInARunAndFinalAfterIt := by
  intro s t h hrst
  cases runEffect_of_step h with
  | reset rst => simp [hrst] at rst
  | keeps phase _ out carried =>
    refine ⟨fun _ => out, fun hp => ?_⟩
    have hc := carried (by simp [hp])
    exact ⟨.inl ⟨by simpa [hc] using out, phase.trans hp⟩, hc⟩
  | opens before _ _ phase out carried => exact ⟨fun hp => absurd hp before, fun _ => ⟨.inr ⟨out, phase⟩, carried⟩⟩
  | closes before _ _ _ _ out carried => exact ⟨fun _ => by simp [out, carried], fun hp => by simp [before] at hp⟩

/-- Settles O38: the phase after each effect that does not keep it; a reset's phase is IDLE. -/
theorem phaseChangesOnlyByResetStartAndEnd : Obligations.PhaseChangesOnlyByResetStartAndEnd := by
  intro s t h hne
  cases runEffect_of_step h with
  | reset rst phase => simpa [phase] using rst
  | keeps phase => exact absurd phase hne
  | opens before rest inputs phase => simpa [phase] using ⟨before, rest, inputs⟩
  | closes before rest inputs phase => simpa [phase] using ⟨before, rest, inputs⟩

end Sys2Proof.Machine
end

section
/-!
PROOFS. The command channel and the output channel (spec/20_memory.md R42, R43, R52, R53): when a word is accepted and what its step
does, when a byte is carried, and what a host's whole stream of commands carries, whatever the pauses and waits in it.
-/

namespace Sys2Proof.Machine

/-! ## Accepting a command -/

/-- Settles O16, by what the ports hold: only a command with no wait left is accepted, and only beside it are `cmd_valid` and
`cmd_ready` both 1 without reset. -/
theorem commandAcceptedWhenValidAndReady : Obligations.CommandAcceptedWhenValidAndReady := by
  intro s w
  rcases fetch_cases s with ⟨hi, hf⟩ | ⟨rest, hi, hf⟩ | ⟨w', n, rest, hi, hf⟩ | ⟨p, rest, hi, hf⟩ | ⟨w', rest, hi, hf⟩
  · simp [hf, State.cmd, hi]
  · simp [hf, State.cmd, hi]
  · simp [hf, State.cmdReady, hi]
  · simp [hf, State.rst, hi]
  · simp [hf, State.cmd, State.cmdValid, State.cmdReady, State.rst, hi]

/-- Settles O17: `step_of_command` at a word that decodes to a command. -/
theorem stepExecutesTheDecodedCommand : Obligations.StepExecutesTheDecodedCommand := by
  intro s w rest i hi hd
  rw [step_of_command hi, hd]

/-- R60: the opcode of a word put together from its two fields. -/
@[simp] theorem opField_append (op : BitVec 2) (d : Byte) : opField (op ++ d) = op := by
  apply BitVec.eq_of_getLsbD_eq
  intro k hk
  grind [opField]

/-- R60: the data of a word put together from its two fields. -/
@[simp] theorem dataField_append (op : BitVec 2) (d : Byte) : dataField (op ++ d) = d := by
  apply BitVec.eq_of_getLsbD_eq
  intro k hk
  grind [dataField]

/-- R69: the word of a command decodes to that command, by its opcode; the operand bit has two values. -/
@[simp] theorem decode_encode (i : Instr) : decode (encode i) = .command i := by
  cases i with
  | byte d => simp [decode, encode]
  | feed v => cases v <;> decide
  | start e => cases e <;> decide
  | endRun => decide

/-- A command word presented by its number is the next input: its 10 bits are below the 16 given. -/
theorem withFetchWord_toNat (s : State) (w : Cmd) :
    s.withFetchWord 16 w.toNat = { s with inputs := .command w 0 :: s.inputs } := by
  have hw : w.toNat % 2 ^ 16 = w.toNat := Nat.mod_eq_of_lt (by omega)
  rw [State.withFetchWord, hw, BitVec.ofNat_toNat, BitVec.setWidth_eq]

/-- Settles O18: the word is the next input, and it decodes to its command. -/
theorem presentedCommandRunsNext : Obligations.PresentedCommandRunsNext := by
  intro s i
  rw [withFetchWord_toNat]
  exact stepExecutesTheDecodedCommand _ _ s.inputs i rfl (decode_encode i)

/-! ## Carrying a byte -/

/-- R112: an open run accepts every command that feeds a bit. -/
theorem accepts_run_of_fedBit {i : Instr} {v : Bit} (h : fedBit i = some v) : accepts .run i = true := by
  cases i with
  | start e => simp [fedBit] at h
  | byte d => rfl
  | feed v => rfl
  | endRun => rfl

/-- R87: a command carries a byte exactly when it feeds the eighth bit of an open run. -/
theorem exec_outValid {i : Instr} {s t : State} (h : exec i s = .next t) :
    t.outValid = true ↔ ∃ v, fedBit i = some v ∧ s.phase = .run ∧ s.cnt = 7#3 := by
  rcases exec_cases h with ⟨r, ha, rfl, -⟩ | ⟨-, -, hf, rfl⟩ | ⟨v, -, -, hc, rfl⟩ | ⟨v, hp, hf, hc, rfl⟩ | ⟨e, hp, -, rfl⟩ |
    ⟨-, rfl, rfl⟩
  · refine iff_of_false (by simp [State.outValid]) ?_
    rintro ⟨v, hf, hp, -⟩
    simp [hp, accepts_run_of_fedBit hf] at ha
  · simp [State.outValid, hf]
  · simp [State.outValid, hc]
  · simp [State.outValid, hf, hp, hc]
  · simp [State.outValid, hp]
  · simp [State.outValid, fedBit]

/-- Settles O26: a step that executes no command carries nothing, and an executed command's case is `exec_outValid`. -/
theorem byteCarriedExactlyOnTheEighthDigit : Obligations.ByteCarriedExactlyOnTheEighthDigit := by
  intro s t h
  constructor
  · intro hv
    rcases step_cases h with ⟨ins, rfl, -⟩ | ⟨p, rest, -, rfl⟩ | ⟨w, rest, -, -, rfl⟩ | ⟨w, rest, i, hi, hd, he⟩
    · simp [State.outValid] at hv
    · simp [State.outValid] at hv
    · simp [State.outValid] at hv
    · obtain ⟨v, hf, hp, hc⟩ := (exec_outValid he).1 hv
      exact ⟨w, rest, i, v, hi, hd, hf, hp, hc⟩
  · rintro ⟨w, rest, i, v, hi, hd, hf, hp, hc⟩
    rw [stepExecutesTheDecodedCommand s w rest i hi hd] at h
    exact (exec_outValid h).2 ⟨v, hf, hp, hc⟩

/-! ## Taking a stream of commands -/

/-- Host inputs are taken one step at a time, as `fetch` does: a waiting command stays with one step less to wait. -/
theorem inputs_induction {P : List HostInput → Prop} (nil : P []) (quiet : ∀ rest, P rest → P (.quiet :: rest))
    (reset : ∀ p rest, P rest → P (.reset p :: rest)) (accepted : ∀ w rest, P rest → P (.command w 0 :: rest))
    (waiting : ∀ w n rest, P (.command w n :: rest) → P (.command w (n + 1) :: rest)) (ins : List HostInput) : P ins := by
  induction ins with
  | nil => exact nil
  | cons a rest ih =>
    cases a with
    | quiet => exact quiet rest ih
    | reset p => exact reset p rest ih
    | command w n =>
      induction n with
      | zero => exact accepted w rest ih
      | succ n ihn => exact waiting w n rest ihn

/-- R52, R142: `P is bs s`, said of the commands still to come, the bytes carried so far and the state, is kept through a stream of
commands when a step that accepts nothing keeps it and an executed command keeps it. -/
structure StreamInvariant (P : List Instr → List Byte → State → Prop) : Prop where
  hold : ∀ {is bs s} (ins : List HostInput), P is bs s → P is bs (State.hold { s with inputs := ins })
  exec : ∀ {i is bs s} (ins : List HostInput), P (i :: is) bs s →
    ∃ t, Machine.exec i { s with inputs := ins } = .next t ∧ P is (bs ++ t.carried.toList) t

/-- One step before a run of `k` steps: what it carries comes before what they carry. -/
theorem runSteps_step {k : Nat} {s u t : State} {bs : List Byte} (h : step s = .next u) (hr : runSteps k u = some (bs, t)) :
    runSteps (k + 1) s = some (u.carried.toList ++ bs, t) := by
  simp [runSteps_succ k h, hr]

/-- R42, R52: the steps that a reset-free list of inputs takes execute the commands it presents, so they keep a stream invariant to
the end of the stream. -/
theorem StreamInvariant.runSteps_stepsTaken {P : List Instr → List Byte → State → Prop} (hP : StreamInvariant P) {s : State}
    {is : List Instr} {bs : List Byte} (hs : P is bs s) (hfree : resetFree s.inputs = true)
    (hw : presentedWords s.inputs = is.map encode) :
    ∃ cs t, runSteps (stepsTaken s.inputs) s = some (cs, t) ∧ P [] (bs ++ cs) t ∧ t.inputs = [] := by
  induction hi : s.inputs using inputs_induction generalizing s is bs with
  | nil =>
    have his : is = [] := by simpa [hi, presentedWords] using hw
    exact ⟨[], s, rfl, by simpa [his] using hs, hi⟩
  | quiet rest ih =>
    simp only [hi, resetFree, presentedWords] at hfree hw
    obtain ⟨cs, t, hr, ht, hin⟩ := ih (hP.hold rest hs) hfree hw rfl
    refine ⟨cs, t, ?_, ht, hin⟩
    rw [stepsTaken, Nat.add_comm]
    exact runSteps_step (step_of_quiet hi) hr
  | reset p rest ih => simp [hi, resetFree] at hfree
  | accepted w rest ih =>
    simp only [hi, resetFree, presentedWords] at hfree hw
    obtain ⟨i, is, rfl, rfl, hrest⟩ := List.map_eq_cons_iff.1 hw.symm
    obtain ⟨u, hu, hsu⟩ := hP.exec rest hs
    have hu_in := exec_inputs hu
    obtain ⟨cs, t, hr, ht, hin⟩ := ih hsu (hu_in ▸ hfree) (hu_in ▸ hrest.symm) hu_in
    refine ⟨_, t, ?_, by simpa [List.append_assoc] using ht, hin⟩
    rw [stepsTaken, Nat.zero_add, Nat.add_comm]
    have hstep := (stepExecutesTheDecodedCommand s _ rest i hi (decode_encode i)).trans hu
    exact runSteps_step hstep hr
  | waiting w n rest ih =>
    simp only [hi, resetFree, presentedWords] at hfree hw
    obtain ⟨cs, t, hr, ht, hin⟩ := ih (hP.hold (.command w n :: rest) hs) hfree hw rfl
    refine ⟨cs, t, ?_, ht, hin⟩
    rw [stepsTaken, show n + 1 + 1 + stepsTaken rest = n + 1 + stepsTaken rest + 1 by omega]
    exact runSteps_step (step_of_waiting hi) hr

/-! ## The run of an input -/

/-- R53, R114: how far the run of the input `x` has come: the commands to come, the bytes carried so far, and the state, whose refusal
mark is `m` throughout. -/
inductive RunProgress (x : List Byte) (e : Endian) (m : Bool) (is : List Instr) (bs : List Byte) (s : State) : Prop
  /-- START is still to come. -/
  | before (todo : is = runProgram x e) (carried : bs = []) (phase : s.phase ≠ .run) (mark : s.refusalMark = m)
  /-- The bytes `y` were presented, and `z` and END are still to come. -/
  | during (y z : List Byte) (input : x = y ++ z) (todo : is = z.map .byte ++ [.endRun]) (carried : bs = s.out)
      (run : OpenRunOf e (digitBits y) s) (mark : s.refusalMark = m)
  /-- END was accepted. -/
  | after (todo : is = []) (carried : bs = s.out) (phase : s.phase = .done) (out : s.out = packAll e (digitBits x))
      (mark : s.refusalMark = m)

/-- The host's inputs are no part of an open run. -/
theorem OpenRunOf.withInputs {e : Endian} {f : List Bit} {s : State} (hs : OpenRunOf e f s) (ins : List HostInput) :
    OpenRunOf e f { s with inputs := ins } :=
  ⟨hs.phase, hs.endian, hs.octets⟩

/-- R142: a step that accepts nothing leaves an open run as it is. -/
theorem OpenRunOf.hold {e : Endian} {f : List Bit} {s : State} (hs : OpenRunOf e f s) : OpenRunOf e f s.hold :=
  ⟨hs.phase, hs.endian, hs.octets⟩

/-- R111: END closes an open run. -/
theorem exec_endRun_of_run {s : State} (hp : s.phase = .run) : exec .endRun s = .next s.closeRun := by
  simp [exec_eq, hp]

/-- R80: the digits of an input and one more byte. -/
theorem digitBits_concat (y : List Byte) (d : Byte) : digitBits (y ++ [d]) = digitBits y ++ (fedBit (.byte d)).toList := by
  cases h : classify d <;> simp [digitBits, fedBit, h]

/-- R114: each command of a run takes the run one command further. -/
theorem RunProgress.streamInvariant (x : List Byte) (e : Endian) (m : Bool) : StreamInvariant (RunProgress x e m) where
  hold ins hs := by
    cases hs with
    | before todo carried phase mark => exact .before todo carried phase mark
    | during y z input todo carried run mark => exact .during y z input todo carried (run.withInputs ins).hold mark
    | after todo carried phase out mark => exact .after todo carried phase out mark
  exec ins hs := by
    cases hs with
    | before todo carried phase mark =>
      obtain ⟨rfl, rfl⟩ := List.cons.inj todo
      exact ⟨_, exec_start_outside e phase, .during [] x rfl rfl (by simp [carried]) (openRun_openRunOf _ e) mark⟩
    | during y z input todo carried run mark =>
      cases z with
      | nil =>
        obtain ⟨rfl, rfl⟩ := List.cons.inj todo
        refine ⟨_, exec_endRun_of_run (run.withInputs ins).phase, .after rfl (by simp [carried]) rfl ?_ mark⟩
        simpa [input] using run.out
      | cons d z =>
        obtain ⟨rfl, rfl⟩ := List.cons.inj todo
        obtain ⟨t, ht, hst, hm⟩ := (run.withInputs ins).exec_data (i := .byte d) (.inl ⟨d, rfl⟩)
        obtain ⟨-, hout, -⟩ := exec_data_frame ht (by simp) (by simp)
        refine ⟨t, ht, .during (y ++ [d]) z (by simpa using input) rfl ?_ (digitBits_concat y d ▸ hst) (hm.trans mark)⟩
        rw [hout, carried]
    | after todo => cases todo

/-- Settles O42: the run's progress is a stream invariant, and when no command is left to come END was accepted, with the bytes carried
in `out`. -/
theorem streamingEngineEqualsTheBatchRun : Obligations.StreamingEngineEqualsTheBatchRun := by
  intro s x e hp hfree hw
  have hstart : RunProgress x e s.refusalMark (runProgram x e) [] s := .before rfl rfl hp rfl
  obtain ⟨cs, t, hr, ht, hin⟩ := (RunProgress.streamInvariant x e s.refusalMark).runSteps_stepsTaken hstart hfree hw
  cases ht with
  | before todo => cases todo
  | during y z _ todo => simp at todo
  | after _ carried phase out mark =>
    have hcs : cs = packAll e (digitBits x) := carried.trans out
    exact ⟨t, hcs ▸ hr, out, phase, mark, hin⟩

end Sys2Proof.Machine
end

section
/-!
PROOFS. The command words and their written form (spec/30_encoding.md R60 to R75): every word is the word of one command or is
reserved, the reserved words by family, and the commands a written line stands for.
-/

namespace Sys2Proof.Machine

/-! ## Legal words and reserved words -/

/-- R67, R68: the facts of Laws/PerInstr.lean, for every command. -/
theorem encoding_statement (i : Instr) : Laws.Encoding.Statement i := by
  cases i with
  | byte d => exact Laws.Encoding.byte d
  | feed v => exact Laws.Encoding.feed v
  | start e => exact Laws.Encoding.start e
  | endRun => exact Laws.Encoding.endRun

/-- R68: the word of a command is legal. -/
@[simp] theorem wordLegal_encode (i : Instr) : wordLegal (encode i) = true := by
  obtain ⟨-, hlegal, -⟩ := encoding_statement i
  exact hlegal

/-- A word given by its number is read as that word: its 10 bits are below the 16 given. -/
theorem decodeTableWord_toNat (w : Cmd) : decodeTableWord 16 w.toNat = (decode w).instr? := by
  have hw : w.toNat % 2 ^ 16 = w.toNat := Nat.mod_eq_of_lt (by omega)
  rw [decodeTableWord, hw, if_pos w.isLt, BitVec.ofNat_toNat, BitVec.setWidth_eq]

/-- Settles O8: `decode_encode`, directly and at the word's number, and the word is legal. -/
theorem decodeReadsBackEveryEncodedCommand : Obligations.DecodeReadsBackEveryEncodedCommand := by
  intro i _
  refine ⟨decode_encode i, ?_, wordLegal_encode i⟩
  rw [decodeTableWord_toNat, decode_encode, Decoded.instr?]

/-- R67 through the fields of R60: BYTE has no reserved word, END's data is 0, and FEED and START leave `data[7:1]` at 0. -/
theorem wordLegal_eq (w : Cmd) :
    wordLegal w =
      if opField w = 0b00#2 then true
      else if opField w = 0b11#2 then dataField w = 0x00#8
      else (dataField w).extractLsb' 1 7 = 0#7 := by
  have hbits : w.extractLsb' 1 7 = (dataField w).extractLsb' 1 7 := by
    apply BitVec.eq_of_getLsbD_eq
    intro k hk
    grind [dataField]
  rw [← hbits]
  rfl

/-- R69: a word that decodes to no command is rejected by its own name, and it is not legal. -/
theorem reserved_of_decode {w w' : Cmd} (h : decode w = .reserved w') : w' = w ∧ wordLegal w = false := by
  have hop : opField w = 0b00#2 ∨ opField w = 0b01#2 ∨ opField w = 0b10#2 ∨ opField w = 0b11#2 := by
    generalize opField w = op
    revert op
    decide
  unfold decode at h
  split_ifs at h with h0 h1 h2 h3
  injection h with h
  refine ⟨h.symm, ?_⟩
  rw [wordLegal_eq, if_neg h0]
  rcases hop with hop | hop | hop | hop
  · exact absurd hop h0
  · simpa [hop] using h1
  · simpa [hop] using h2
  · simpa [hop] using h3

/-- Settles O9, by what the word decodes to: `encode_of_decode` for a command, `reserved_of_decode` for a reserved word. -/
theorem everyWordIsOneCommandOrReserved : Obligations.EveryWordIsOneCommandOrReserved := by
  intro w
  cases hd : decode w with
  | command i =>
    have hw := encode_of_decode hd
    exact .inl ⟨i, rfl, hw, hw ▸ wordLegal_encode i⟩
  | reserved w' =>
    obtain ⟨rfl, hlegal⟩ := reserved_of_decode hd
    refine .inr ⟨rfl, hlegal, ?_⟩
    rintro i rfl
    simp at hd

/-- R70: a word that is not legal decodes to `Reserved`. -/
theorem decode_of_not_legal {w : Cmd} (h : wordLegal w = false) : decode w = .reserved w := by
  rcases everyWordIsOneCommandOrReserved w with ⟨i, -, -, hlegal⟩ | ⟨hd, -⟩
  · simp [h] at hlegal
  · exact hd

/-- Settles O19: the step refuses the word before it looks at the phase, so `refuse_refusedStep` describes it. -/
theorem reservedWordIsRefusedInEveryPhase : Obligations.ReservedWordIsRefusedInEveryPhase := by
  intro s w rest hi hlegal
  refine ⟨State.refuse { s with inputs := rest } .reserved, ?_, refuse_refusedStep _ _, rfl⟩
  rw [step_of_command hi, decode_of_not_legal hlegal]

/-! ## Words of the tables -/

/-- Settles O6: BYTE's opcode is 0, so its word is its data; the others are fixed words. -/
theorem commandWordsOfTheFourForms : Obligations.CommandWordsOfTheFourForms := by
  refine ⟨fun d => ?_, rfl, rfl, rfl, rfl, rfl, rfl⟩
  rw [encode, BitVec.toNat_append]
  simp

/-- Settles O7: seven of the words are the words of their commands, and three have a reserved bit set. -/
theorem listedWordsDecodeAsListed : Obligations.ListedWordsDecodeAsListed :=
  ⟨decode_encode (.byte 0x31#8), decode_encode (.byte 0xFF#8), decode_encode (.feed false), decode_encode (.feed true),
    decode_encode (.start .little), decode_encode (.start .big), decode_encode .endRun,
    decode_of_not_legal rfl, decode_of_not_legal rfl, decode_of_not_legal rfl⟩

/-- Settles O12: without a digit both bits are 0, and with one the valid bit is 1. -/
theorem classifySignalCodes : Obligations.ClassifySignalCodes := by
  refine ⟨rfl, rfl, rfl, fun c => ?_⟩
  cases c with
  | none => decide
  | some v => cases v <;> decide

/-! ## Counting the reserved words -/

/-- R60: the 256 words of an opcode, in the order of their data. -/
def wordsOf (op : BitVec 2) : List Cmd := (List.range 256).map fun n => op ++ BitVec.ofNat 8 n

/-- R60: a word's number is its opcode times 256 and its data. -/
theorem ofNat_eq_append (op : BitVec 2) {n : Nat} (h : n < 256) : BitVec.ofNat 10 (256 * op.toNat + n) = op ++ BitVec.ofNat 8 n := by
  apply BitVec.eq_of_toNat_eq
  have hop := op.isLt
  have hn : n < 2 ^ 8 := h
  rw [BitVec.toNat_append, BitVec.toNat_ofNat, BitVec.toNat_ofNat, Nat.mod_eq_of_lt hn, ← Nat.shiftLeft_add_eq_or_of_lt hn,
    Nat.shiftLeft_eq]
  omega

/-- R60: the words in numerical order are those of the four opcodes in order. -/
theorem words_eq_wordsOf :
    (List.range 1024).map (BitVec.ofNat 10) = wordsOf 0b00#2 ++ wordsOf 0b01#2 ++ wordsOf 0b10#2 ++ wordsOf 0b11#2 := by
  have hop (op : BitVec 2) : wordsOf op = (List.range 256).map fun n => BitVec.ofNat 10 (256 * op.toNat + n) :=
    List.map_congr_left fun n hn => (ofNat_eq_append op (List.mem_range.1 hn)).symm
  rw [show 1024 = 256 + 256 + 256 + 256 from rfl]
  simp only [List.range_add, hop]
  simp [Function.comp_def]

/-- R67: an opcode whose legal words are those with data below `k` has `256 - k` reserved words. -/
theorem wordsOf_countP_reserved {op : BitVec 2} {k : Nat} (hk : k ≤ 256)
    (h : ∀ n < 256, wordLegal (op ++ BitVec.ofNat 8 n) = decide (n < k)) :
    (wordsOf op).countP (fun w => !wordLegal w) = 256 - k := by
  have hdata : (wordsOf op).countP (fun w => !wordLegal w) = (List.range (k + (256 - k))).countP (fun n => !decide (n < k)) := by
    rw [wordsOf, List.countP_map, Nat.add_sub_cancel' hk]
    exact List.countP_congr fun n hn => by simp [h n (List.mem_range.1 hn)]
  have hlegal : (List.range k).countP (fun n => !decide (n < k)) = 0 := by simp [List.countP_eq_zero]
  rw [hdata, List.range_add, List.countP_append, hlegal, List.countP_map]
  simp [Function.comp_def]

/-- R63, R64: the reserved bits of the data are 0 when it is 0 or 1. -/
theorem reservedBits_ofNat {n : Nat} (h : n < 256) : (BitVec.ofNat 8 n).extractLsb' 1 7 = 0#7 ↔ n < 2 := by
  rw [← BitVec.toNat_inj]
  simp [Nat.shiftRight_eq_div_pow]
  omega

/-! R67, family by family: BYTE has no reserved data, FEED and START have all but two, END all but one. -/

@[simp] theorem wordsOf_byte_reserved : (wordsOf 0b00#2).countP (fun w => !wordLegal w) = 0 :=
  wordsOf_countP_reserved (k := 256) (by omega) fun n hn => by simp [wordLegal_eq, hn]

@[simp] theorem wordsOf_feed_reserved : (wordsOf 0b01#2).countP (fun w => !wordLegal w) = 254 :=
  wordsOf_countP_reserved (k := 2) (by omega) fun n hn => by simp [wordLegal_eq, reservedBits_ofNat hn]

@[simp] theorem wordsOf_start_reserved : (wordsOf 0b10#2).countP (fun w => !wordLegal w) = 254 :=
  wordsOf_countP_reserved (k := 2) (by omega) fun n hn => by simp [wordLegal_eq, reservedBits_ofNat hn]

@[simp] theorem wordsOf_endRun_reserved : (wordsOf 0b11#2).countP (fun w => !wordLegal w) = 255 :=
  wordsOf_countP_reserved (k := 1) (by omega) fun n hn => by
    simp [wordLegal_eq, ← BitVec.toNat_inj]
    omega

/-- R60: among the words of one opcode, those with a given opcode are all or none. -/
@[simp] theorem wordsOf_countP_opField (op op' : BitVec 2) :
    (wordsOf op').countP (fun w => opField w = op && !wordLegal w) =
      if op' = op then (wordsOf op').countP (fun w => !wordLegal w) else 0 := by
  simp only [wordsOf, List.countP_map, Function.comp_def, opField_append]
  by_cases h : op' = op <;> simp [h]

/-- Settles O10: the words are those of the four opcodes, whose reserved words are counted one opcode at a time; every other word is
legal. -/
theorem reservedWordCounts : Obligations.ReservedWordCounts := by
  unfold Obligations.ReservedWordCounts
  intro words reserved
  have hwords : words = wordsOf 0b00#2 ++ wordsOf 0b01#2 ++ wordsOf 0b10#2 ++ wordsOf 0b11#2 := words_eq_wordsOf
  have hreserved : words.countP (fun w => !wordLegal w) = 763 := by simp [hwords]
  have hsplit : words.length = words.countP wordLegal + words.countP (fun w => !wordLegal w) := by
    simpa using List.length_eq_countP_add_countP wordLegal
  have hlength : words.length = 1024 := by simp [words]
  refine ⟨?_, ?_, ?_, ?_, hreserved, by omega⟩ <;> simp [reserved, hwords]

/-! ## The written form -/

/-- R72: a line is rejected when its operand is out of range. -/
theorem expand_of_not_wellFormed {l : SrcLine} (h : l.wellFormed = false) : expand l = none := by
  simp [expand, h]

/-- R72: a number up to 255 is the byte it stands for. -/
theorem expand_byte_toNat (d : Byte) : expand (.byte d.toNat) = some [.byte d] := by
  have hd : d.toNat ≤ 255 := by omega
  simp [expand, SrcLine.wellFormed, hd]

/-- Settles O47: a line whose operand is in range is expanded by its definition, and the two numbers out of range are ill formed. -/
theorem writtenLinesStandForTheirCommands : Obligations.WrittenLinesStandForTheirCommands := by
  refine ⟨expand_byte_toNat, fun n hn => expand_of_not_wellFormed ?_, rfl, rfl, fun n hn => expand_of_not_wellFormed ?_,
    fun _ => rfl, rfl, fun _ => rfl, fun _ _ => rfl⟩
  · simpa [SrcLine.wellFormed] using hn
  · simpa [SrcLine.wellFormed] using hn

/-- Settles O48: R75 assembles to words of commands, and those are legal and decode. -/
theorem assemblerSpellsNoReservedWord : Obligations.AssemblerSpellsNoReservedWord := by
  intro text words h w hw
  obtain ⟨is, -, rfl⟩ := Option.map_eq_some_iff.1 h
  obtain ⟨i, -, rfl⟩ := List.mem_map.1 hw
  exact ⟨wordLegal_encode i, i, decode_encode i⟩

end Sys2Proof.Machine
end

section
/-!
PROOFS. Classification, packing and feeding one bit (spec/40_classify_feed.md R80, R83 to R86, R88, R89): which bytes are digits, the
laws of `pack`, and what an accepted BYTE or FEED does to an open run.
-/

namespace Sys2Proof.Machine

/-! ## Classification -/

/-- Settles O11, by the three cases of classification. -/
theorem classifyRecognisesExactlyTheTwoDigits : Obligations.ClassifyRecognisesExactlyTheTwoDigits := by
  intro d
  rcases classify_cases d with ⟨rfl, hc⟩ | ⟨rfl, hc⟩ | ⟨h1, h0, hc⟩
  · rw [hc]
    decide
  · rw [hc]
    decide
  · rw [hc]
    exact ⟨⟨nofun, fun h => absurd h h1⟩, ⟨nofun, fun h => absurd h h0⟩, fun _ => ⟨h0, h1⟩, fun _ => rfl⟩

/-! ## Packing -/

/-- R83: under Big, output bit `k` takes slot `7 - k`. -/
theorem slotOf_big_val (k : Fin 8) : (slotOf .big k).val = 7 - k.val := by
  simp [slotOf]

/-- Settles O13: `pack_getLsbD` under each endianness. -/
theorem packPlacesEachBitByEndianness : Obligations.PackPlacesEachBitByEndianness := by
  intro b k h
  have hbig := pack_getLsbD b .big ⟨k, h⟩
  simp only [Fin.getElem_fin, slotOf_big_val] at hbig
  exact ⟨pack_getLsbD b .little ⟨k, h⟩, hbig⟩

/-- R84: the bit in slot `p` stands at position `slotOf e p`, since the slot order is its own inverse. -/
theorem pack_getLsbD_slotOf (b : Vector Bit 8) (e : Endian) (p : Fin 8) : (pack b e).getLsbD (slotOf e p) = b[p] := by
  simp only [pack_getLsbD, Fin.getElem_fin, slotOf_slotOf]

/-- A byte is the sum of its bits at their positions. -/
theorem byte_toNat_eq_sum (x : Byte) : x.toNat = ∑ k : Fin 8, (x.getLsbD k).toNat <<< k.val := by
  have hx := x.isLt
  simp [Fin.sum_univ_eight, BitVec.getLsbD, Nat.toNat_testBit, Nat.shiftLeft_eq]
  omega

/-- R84: the packed byte is the sum over the slots, which the output bits take in another order. -/
theorem pack_toNat_eq_sum (b : Vector Bit 8) (e : Endian) : (pack b e).toNat = ∑ p : Fin 8, b[p].toNat <<< (slotOf e p).val := by
  have hinv : Function.Involutive (slotOf e) := slotOf_slotOf e
  rw [byte_toNat_eq_sum, ← Equiv.sum_comp hinv.toPerm]
  exact Finset.sum_congr rfl fun p _ => by rw [hinv.coe_toPerm, pack_getLsbD_slotOf]

/-- Settles O14: `pack_toNat_eq_sum`, where `7 - p` is the reverse of `p`. -/
theorem packIsTheSumOfPlacedBits : Obligations.PackIsTheSumOfPlacedBits := by
  intro b
  have hbig := pack_toNat_eq_sum b .big
  simp only [slotOf_big_val] at hbig
  exact ⟨pack_toNat_eq_sum b .little, hbig⟩

/-- R85: under Big the bits are those under Little in reverse. -/
theorem pack_big_getLsbD (b : Vector Bit 8) {k : Nat} (h : k < 8) :
    (pack b .big).getLsbD k = (pack b .little).getLsbD (7 - k) := by
  obtain ⟨-, hbig⟩ := packPlacesEachBitByEndianness b k h
  obtain ⟨hlittle, -⟩ := packPlacesEachBitByEndianness b (7 - k) (by omega)
  rw [hbig, hlittle]

/-- R85: Big is the bit reversal of Little. -/
theorem pack_big_eq_rev8 (b : Vector Bit 8) : pack b .big = rev8 (pack b .little) := by
  apply BitVec.eq_of_getLsbD_eq
  intro k hk
  rw [pack_big_getLsbD b hk, rev8, BitVec.getLsbD_reverse, BitVec.getMsbD]
  simp [hk]

/-- R85: under Big the octet is a binary number, first digit most significant. -/
theorem pack_big_toNat (b : Vector Bit 8) : (pack b .big).toNat = b.toList.foldl (fun n v => 2 * n + v.toNat) 0 := by
  obtain ⟨-, hsum⟩ := packIsTheSumOfPlacedBits b
  rw [hsum, octet_eq b]
  simp [Fin.sum_univ_eight, Nat.shiftLeft_eq]
  omega

/-- The slots of an octet, in the order of the output bits they give. -/
theorem map_pack_getLsbD (b : Vector Bit 8) (e : Endian) :
    (List.range 8).map (pack b e).getLsbD = (match e with | .little => b.toList | .big => b.toList.reverse) := by
  apply List.ext_getElem
  · cases e <;> simp
  · intro k hk _
    obtain ⟨hlittle, hbig⟩ := packPlacesEachBitByEndianness b k (by simpa using hk)
    cases e with
    | little => simpa using hlittle
    | big => simpa using hbig

/-- R85: packing keeps the number of 1 bits. -/
theorem pack_countP (b : Vector Bit 8) (e : Endian) :
    (List.range 8).countP (fun k => (pack b e).getLsbD k) = b.toList.count true := by
  have hcount : (List.range 8).countP (fun k => (pack b e).getLsbD k) = ((List.range 8).map (pack b e).getLsbD).count true := by
    simp [List.count, List.countP_map, Function.comp_def]
  rw [hcount, map_pack_getLsbD]
  cases e <;> simp

/-- R85: an octet is unpacked from its byte. -/
@[simp] theorem unpack_pack (b : Vector Bit 8) (e : Endian) : unpack e (pack b e) = b := by
  ext k hk
  simpa [unpack] using pack_getLsbD_slotOf b e ⟨k, hk⟩

/-- Settles O15, one lemma for each law; `unpack` is the inverse that makes packing a bijection. -/
theorem packLaws : Obligations.PackLaws := by
  refine ⟨fun b k hk => pack_big_getLsbD b hk, pack_big_eq_rev8, pack_big_toNat, pack_countP, ?_, ?_⟩
  · intro e
    cases e <;> decide
  · intro e r
    refine ⟨unpack e r, pack_unpack e r, ?_⟩
    rintro b rfl
    exact (unpack_pack b e).symm

/-! ## Feeding one bit -/

/-- The commands of R86: BYTE of a digit and FEED are data commands that feed their bit. -/
theorem fedBit_of_digit {i : Instr} {v : Bit} (h : i = .byte 0x30#8 ∧ v = false ∨ i = .byte 0x31#8 ∧ v = true ∨ i = .feed v) :
    IsDataCommand i ∧ fedBit i = some v := by
  rcases h with ⟨rfl, rfl⟩ | ⟨rfl, rfl⟩ | rfl
  · exact ⟨.inl ⟨_, rfl⟩, classify_digitByte false⟩
  · exact ⟨.inl ⟨_, rfl⟩, classify_digitByte true⟩
  · exact ⟨.inr ⟨_, rfl⟩, rfl⟩

/-- R86: in an open run a data command with a bit feeds it. -/
theorem exec_of_fedBit {i : Instr} {v : Bit} {s : State} (hi : IsDataCommand i) (hf : fedBit i = some v) (hp : s.phase = .run) :
    exec i s = .next (s.feedBit v) := by
  rw [exec_data_of_run hi hp, hf, Option.elim_some]

/-- Settles O23: below seven the bit is appended (`appendBit_pending`), which is the only change. -/
theorem digitBelowSevenIsAppended : Obligations.DigitBelowSevenIsAppended := by
  intro i v s h hp hc
  obtain ⟨hi, hf⟩ := fedBit_of_digit h
  refine ⟨(s.appendBit v).accept, ?_, s.appendBit_pending v hc, cnt_succ_toNat hc, rfl, hp, rfl, rfl, rfl, rfl, rfl⟩
  rw [exec_of_fedBit hi hf hp, feedBit_of_room v hc]

/-- Settles O24: at seven the bit flushes, and the byte is `flushByte_eq`'s. -/
theorem eighthDigitFlushesOneByte : Obligations.EighthDigitFlushesOneByte := by
  intro i v s h hp hc
  obtain ⟨hi, hf⟩ := fedBit_of_digit h
  refine ⟨s.flush v, s.flushByte v, ?_, s.flushByte_eq v, rfl, rfl, rfl, rfl, s.flush_pending v, rfl, hp, rfl, rfl⟩
  rw [exec_of_fedBit hi hf hp, feedBit_of_full v hc]

/-- Settles O22: no digit is classified, so the byte is accepted without effect. -/
theorem nonDigitByteChangesNothing : Obligations.NonDigitByteChangesNothing := by
  intro d s hp h0 h1
  obtain ⟨-, -, hnone⟩ := classifyRecognisesExactlyTheTwoDigits d
  have hf : fedBit (.byte d) = none := hnone.2 ⟨h0, h1⟩
  refine ⟨s.accept, ?_, ⟨rfl, rfl, rfl, rfl, rfl⟩, rfl, rfl, rfl, rfl⟩
  rw [exec_data_of_run (.inl ⟨d, rfl⟩) hp, hf, Option.elim_none]

/-- R89: FEED is BYTE of its bit's digit, in every phase. -/
theorem exec_feed_eq_byte (v : Bit) (s : State) : exec (.feed v) s = exec (.byte (digitByte v)) s := by
  simp [exec_eq]

/-- Settles O25: `exec_feed_eq_byte` at the two bits. -/
theorem feedEqualsByteOfItsDigit : Obligations.FeedEqualsByteOfItsDigit :=
  fun s => ⟨exec_feed_eq_byte false s, exec_feed_eq_byte true s⟩

end Sys2Proof.Machine
end

section
/-!
PROOFS. Run control (spec/41_run_control.md R110 to R120): which commands a phase accepts and what an accepted or refused one leaves,
the protocol of a list of commands, and the result of a whole run.
-/

namespace Sys2Proof.Machine

/-! ## Accepted and refused commands -/

/-- R112, R131: the reason for which a phase refuses a command it does not accept. -/
def refusalReason (p : Phase) : RefuseReason := if p = .run then .runOpen else .notRunning

/-- R26: outside a run the phase is IDLE or DONE. -/
theorem phase_ne_run_iff (p : Phase) : p ≠ .run ↔ p = .idle ∨ p = .done := by
  cases p <;> simp

/-- R112: outside a run START is accepted. -/
theorem accepts_start_outside (e : Endian) {p : Phase} (hp : p ≠ .run) : accepts p (.start e) = true := by
  rcases (phase_ne_run_iff p).1 hp with rfl | rfl <;> rfl

/-- R112: a command its phase does not accept is refused, for the phase's reason. -/
theorem exec_of_not_accepts {i : Instr} {s : State} (ha : accepts s.phase i = false) :
    exec i s = .next (s.refuse (refusalReason s.phase)) := by
  obtain ⟨t, ht⟩ := exec_next i s
  rw [ht]
  rcases exec_cases ht with ⟨r, -, rfl, rfl⟩ | ⟨hp, ⟨d, rfl⟩, -, -⟩ | ⟨v, hp, hf, -, -⟩ | ⟨v, hp, hf, -, -⟩ | ⟨e, hp, rfl, -⟩ |
    ⟨hp, rfl, -⟩
  · rfl
  · simp [hp, accepts] at ha
  · simp [hp, accepts_run_of_fedBit hf] at ha
  · simp [hp, accepts_run_of_fedBit hf] at ha
  · simp [accepts_start_outside e hp] at ha
  · simp [hp, accepts] at ha

/-- R112: the phase a command that feeds a bit leaves is the one it finds. -/
theorem phaseAfter_of_fedBit {i : Instr} {v : Bit} (h : fedBit i = some v) (p : Phase) : phaseAfter p i = p := by
  cases i with
  | start e => simp [fedBit] at h
  | byte d => rfl
  | feed v => rfl
  | endRun => simp [fedBit] at h

/-- R112: a command its phase accepts takes the phase where the table says, and refuses nothing. -/
theorem exec_of_accepts {i : Instr} {s : State} (ha : accepts s.phase i = true) :
    ∃ t, exec i s = .next t ∧ t.phase = phaseAfter s.phase i ∧ t.refusalMark = s.refusalMark ∧ ∃ b, t.event = .ok b := by
  obtain ⟨t, ht⟩ := exec_next i s
  refine ⟨t, ht, ?_⟩
  rcases exec_cases ht with ⟨r, hn, -, -⟩ | ⟨-, ⟨d, rfl⟩, -, rfl⟩ | ⟨v, -, hf, -, rfl⟩ | ⟨v, -, hf, -, rfl⟩ | ⟨e, -, rfl, rfl⟩ |
    ⟨-, rfl, rfl⟩
  · simp [ha] at hn
  · exact ⟨rfl, rfl, _, rfl⟩
  · exact ⟨(phaseAfter_of_fedBit hf _).symm, rfl, _, rfl⟩
  · exact ⟨(phaseAfter_of_fedBit hf _).symm, rfl, _, rfl⟩
  · exact ⟨rfl, rfl, _, rfl⟩
  · exact ⟨rfl, rfl, _, rfl⟩

/-- R112: START is refused while a run is open. -/
theorem exec_start_of_run {s : State} (e : Endian) (hp : s.phase = .run) : exec (.start e) s = .next (s.refuse .runOpen) := by
  simpa [refusalReason, hp] using exec_of_not_accepts (i := .start e) (s := s) (by rw [hp, accepts])

/-- R112: outside a run every command but START is refused. -/
theorem exec_outside_run {i : Instr} {s : State} (hi : ∀ e, i ≠ .start e) (hp : s.phase ≠ .run) :
    exec i s = .next (s.refuse .notRunning) := by
  have ha : accepts s.phase i = false := by
    rcases (phase_ne_run_iff _).1 hp with hq | hq <;> simp [hq, accepts]
  simpa [refusalReason, hp] using exec_of_not_accepts ha

/-- R32, R110: STATUS of a run just opened. -/
theorem State.openRun_status (s : State) (e : Endian) : (s.openRun e).status = statusWord .run e 0#3 := rfl

/-- R32, R111: STATUS of a run just closed. -/
theorem State.closeRun_status (s : State) : s.closeRun.status = statusWord .done s.endian 0#3 := rfl

/-- Settles O27: START outside a run is `openRun`. -/
theorem startOpensAFreshRun : Obligations.StartOpensAFreshRun := by
  intro e s hp
  refine ⟨s.openRun e, exec_start_outside e hp, rfl, rfl, s.openRun_pending e, rfl, rfl, ?_, rfl, rfl, rfl, rfl⟩
  rw [State.openRun_status]
  cases e <;> rfl

/-- Settles O28: START in an open run is a refusal, which `refuse_refusedStep` describes. -/
theorem startInAnOpenRunIsRefused : Obligations.StartInAnOpenRunIsRefused :=
  fun e s hp => ⟨_, exec_start_of_run e hp, refuse_refusedStep s .runOpen, rfl⟩

/-- Settles O29: END in an open run is `closeRun`. -/
theorem endClosesTheRunAndDropsThePartialByte : Obligations.EndClosesTheRunAndDropsThePartialByte := by
  intro s hp
  refine ⟨s.closeRun, exec_endRun_of_run hp, rfl, s.closeRun_pending, rfl, rfl, rfl, ?_, rfl, rfl, rfl, rfl⟩
  rw [State.closeRun_status]
  cases s.endian <;> rfl

/-- Settles O30: none of the commands is START, so each is refused outside a run. -/
theorem commandsOutsideARunAreRefused : Obligations.CommandsOutsideARunAreRefused := by
  intro i s hi hp
  have hstart : ∀ e, i ≠ .start e := by
    rintro e rfl
    simp at hi
  exact ⟨_, exec_outside_run hstart hp, refuse_refusedStep s .notRunning, rfl⟩

/-- Settles O34: in RUN command by command; outside a run START opens one and every other command is refused. -/
theorem phaseTable : Obligations.PhaseTable := by
  intro i s
  by_cases hp : s.phase = .run
  · cases i with
    | start e => exact ⟨_, exec_start_of_run e hp, by simpa [hp] using refuse_refusedStep s .runOpen⟩
    | byte d => simpa [hp, phaseAfter] using exec_of_accepts (i := .byte d) (s := s) (by simp [hp, accepts])
    | feed v => simpa [hp, phaseAfter] using exec_of_accepts (i := .feed v) (s := s) (by simp [hp, accepts])
    | endRun => exact ⟨_, exec_endRun_of_run hp, by simp [hp]⟩
  · have hq := (phase_ne_run_iff _).1 hp
    cases i with
    | start e =>
      refine ⟨_, exec_start_outside e hp, ?_⟩
      rcases hq with hq | hq <;> simp [hq]
    | byte _ | feed _ | endRun =>
      refine ⟨_, exec_outside_run (by simp) hp, ?_⟩
      rcases hq with hq | hq <;> simpa [hq] using refuse_refusedStep s .notRunning

/-! ## The protocol of a list of commands -/

/-- Settles O45, by induction on the commands: an accepted one leaves the mark and goes on in the phase `phaseAfter` gives, a refused
one sets the mark, as the protocol is broken. -/
theorem protocolKeptExactlyWhenNeverRefused : Obligations.ProtocolKeptExactlyWhenNeverRefused := by
  intro is
  induction is with
  | nil => exact fun s => ⟨s, rfl, by simp [keepsProtocol]⟩
  | cons i is ih =>
    intro s
    cases ha : accepts s.phase i with
    | true =>
      obtain ⟨u, hu, hphase, hmark, -⟩ := exec_of_accepts ha
      obtain ⟨t, ht, hiff⟩ := ih u
      refine ⟨t, (execAll_cons is hu).trans ht, ?_⟩
      rw [hiff, hphase, hmark, keepsProtocol, ha, Bool.true_and]
    | false =>
      obtain ⟨t, ht, hiff⟩ := ih (s.refuse (refusalReason s.phase))
      refine ⟨t, (execAll_cons is (exec_of_not_accepts ha)).trans ht, ?_⟩
      simp [hiff, keepsProtocol, ha]

/-! ## The result of a run -/

/-- R115: a run ends in DONE with its digits packed in `out`, whatever bits the last octet lacks. -/
theorem execAll_runProgram_done {s : State} (x : List Byte) (e : Endian) (hp : s.phase ≠ .run) :
    ∃ t, execAll (runProgram x e) s = .next t ∧ t.phase = .done ∧ t.out = packAll e (digitBits x) ∧ t.cnt = 0#3 ∧ t.endian = e ∧
      t.refusalMark = s.refusalMark := by
  obtain ⟨t, ht, hrun, hmark⟩ := execAll_runProgram x e hp
  exact ⟨t.closeRun, ht, rfl, hrun.out, rfl, hrun.endian, hmark⟩

/-- Settles O41: `out` is `packAll` of the digits, whose closed form is `packAll_getElem?`. -/
theorem runGivesItsClosedForm : Obligations.RunGivesItsClosedForm := by
  intro s x e hp f
  obtain ⟨t, ht, hphase, hout, hcnt, hendian, hmark⟩ := execAll_runProgram_done x e hp
  refine ⟨t, ht, hphase, ?_, ?_, hcnt, hendian, hmark⟩
  · rw [hout, packAll_length]
  · intro j hj
    rw [hout]
    exact packAll_getElem? e f j hj

/-- R116: the bytes that are no digits give no bits. -/
theorem digitBits_filter_digits (x : List Byte) : digitBits (x.filter fun d => (classify d).isSome) = digitBits x := by
  rw [digitBits, digitBits, List.filterMap_filter]
  congr 1
  funext d
  cases classify d <;> rfl

/-- Settles O43: inputs with the same digits have the same bits, and a run's result depends on the bits and the endianness alone. -/
theorem nonDigitsAreTransparentAndRunsDeterministic : Obligations.NonDigitsAreTransparentAndRunsDeterministic := by
  intro s s' x y e hp hp' hxy
  have hbits : digitBits x = digitBits y := by rw [← digitBits_filter_digits x, hxy, digitBits_filter_digits]
  obtain ⟨t, ht, hphase, hout, hcnt, hendian, -⟩ := execAll_runProgram_done x e hp
  obtain ⟨t', ht', hphase', hout', hcnt', hendian', -⟩ := execAll_runProgram_done y e hp'
  refine ⟨t, t', ht, ht', ?_, ?_⟩
  · rw [hout, hout', hbits]
  · rw [State.status, State.status, hphase, hphase', hendian, hendian', hcnt, hcnt']

/-! ## The observation of a run -/

/-- R120: closing a run observes `out` and STATUS, unless a refusal is recorded. -/
theorem observation_closeRun {s : State} (hp : s.phase = .run) (u : State) :
    observation s u.closeRun = if u.refusalMark then none else some ⟨u.out, statusWord .done u.endian 0#3⟩ := by
  cases hm : u.refusalMark <;> simp [observation, hp, hm, State.closeRun_status]

/-- R120: only a step from RUN to DONE observes anything. -/
theorem phases_of_observation {s t : State} (h : observation s t ≠ none) : s.phase = .run ∧ t.phase = .done := by
  unfold observation at h
  split_ifs at h with hc
  · obtain ⟨hrun, hdone, -⟩ := hc
    exact ⟨hrun, hdone⟩
  · exact absurd rfl h

/-- Settles O46: END's step in a run is `closeRun`, and a step from RUN to DONE is END's by `phaseChangesOnlyByResetStartAndEnd`. -/
theorem runIsObservedAtItsEnd : Obligations.RunIsObservedAtItsEnd := by
  intro s t h
  constructor
  · intro rest hi hp
    have hstep := stepExecutesTheDecodedCommand s _ rest .endRun hi (decode_encode .endRun)
    rw [hstep, exec_endRun_of_run (s := { s with inputs := rest }) hp] at h
    injection h with h
    rw [← h, observation_closeRun hp]
    cases s.endian <;> rfl
  · intro hobs
    obtain ⟨hp, hdone⟩ := phases_of_observation hobs
    have hchange := phaseChangesOnlyByResetStartAndEnd s t h (by simp [hp, hdone])
    rw [hdone] at hchange
    exact hchange

end Sys2Proof.Machine
end

section
/-!
PROOFS. The engine between commands (spec/60_exceptions.md R142): every step that accepts nothing is a `State.hold`, which leaves
the engine's state as it is.
-/

namespace Sys2Proof.Machine

/-- R20, R142: holding, with the host's inputs moved on, keeps all five elements of the state. -/
theorem hold_sameElements (s : State) (ins : List HostInput) : SameElements s (State.hold { s with inputs := ins }) := by
  simp [SameElements]

/-- Settles O20: with nothing left to present, a quiet input or a command that waits, the step is a hold, and only the host's inputs
move on. -/
theorem stateHoldsBetweenCommands : Obligations.StateHoldsBetweenCommands := by
  intro s
  refine ⟨fun hnil => ?_, fun rest hquiet => ?_, fun w n rest hwaiting => ?_⟩
  · exact ⟨_, step_of_nil hnil, hold_sameElements s s.inputs, rfl, rfl, hnil⟩
  · exact ⟨_, step_of_quiet hquiet, hold_sameElements s rest, rfl, rfl, rfl⟩
  · exact ⟨_, step_of_waiting hwaiting, hold_sameElements s _, rfl, rfl, rfl⟩

end Sys2Proof.Machine
end

section
/-!
PROOFS. Reset and a waiting command (spec/70_reset_and_hazards.md R150, R160): the reset step is `State.resetEngine` whatever is
presented with it, and a command is accepted after the steps that the engine keeps it waiting.
-/

namespace Sys2Proof.Machine

/-- R32, R150: STATUS after a reset step. -/
@[simp] theorem State.resetEngine_status (s : State) : s.resetEngine.status = 0x00#8 := by
  have hfields : s.resetEngine.status = statusWord .idle .little 0#3 := rfl
  rw [hfields]
  decide

/-- Settles O2: with or without a command the step is `State.resetEngine` (`step_of_reset`), and only the host's inputs move on. -/
theorem resetStepClearsTheEngineAndBeatsACommand : Obligations.ResetStepClearsTheEngineAndBeatsACommand := by
  intro s presented rest hreset
  exact ⟨_, step_of_reset hreset, by simp⟩

/-- R45: a command that need wait no longer is what the step finds at the ports. -/
theorem fetch_of_command {s : State} {w : Cmd} {rest : List HostInput} (h : s.inputs = .command w 0 :: rest) :
    fetch s = .command w { s with inputs := rest } := by
  simp [fetch, h]

/-- R20: what two stretches of steps both keep, they keep together. -/
theorem SameElements.trans {s t u : State} (hst : SameElements s t) (htu : SameElements t u) : SameElements s u := by
  obtain ⟨hbuf, hcnt, hendian, hphase, hout⟩ := hst
  obtain ⟨hbuf', hcnt', hendian', hphase', hout'⟩ := htu
  exact ⟨hbuf'.trans hbuf, hcnt'.trans hcnt, hendian'.trans hendian, hphase'.trans hphase, hout'.trans hout⟩

/-- Settles O21, by induction on the wait: each waiting step is a hold with one step less to wait. -/
theorem presentedCommandIsEventuallyAccepted : Obligations.PresentedCommandIsEventuallyAccepted := by
  intro n
  induction n with
  | zero => exact fun s w rest hready => ⟨s, _, rfl, ⟨rfl, rfl, rfl, rfl, rfl⟩, rfl, fetch_of_command hready, rfl⟩
  | succ n ih =>
    intro s w rest hwaiting
    obtain ⟨t, u, hrun, hsame, hmark, hfetch, hinputs⟩ := ih (State.hold { s with inputs := .command w n :: rest }) w rest rfl
    exact ⟨t, u, runSteps_step (step_of_waiting hwaiting) hrun, (hold_sameElements s _).trans hsame, hmark, hfetch, hinputs⟩

end Sys2Proof.Machine
end
